-- ==== Sys2Proof/Config.lean ====
section
/-! DEFINITION. What this machine fixes: the parameters of 00_scope.md R5, the decode priority (92_eei_decisions.md D3)
and the names of the seven error kinds (60_exceptions.md R160). No value of this hardware is left free: the source calls
nothing undefined (93_implementation_defined.md, section 1). -/

namespace Sys2Proof

/-- The seven error kinds of 60_exceptions.md R160, in the order of the source's list. Six are raised by a step;
`loadFailure` belongs to the loader and no step raises it (R162). None carries a payload (R163). -/
inductive ErrorKind where
  | loadFailure
  | operandOutOfRange
  | unknownOperation
  | counterOutOfRange
  | inputExhausted
  | invalidWord
  | divisionByZero
deriving DecidableEq, Repr

/-- Which decode error is reported when both conditions of 40_instruction_cycle.md R85 hold (parameter DECODE_PRIORITY
of R5). -/
inductive DecodePriority where
  | operandFirst
  | opcodeFirst
deriving DecidableEq, Repr

/-- WORD_MIN of R5. -/
abbrev Config.wordMin : Int := -9999

/-- WORD_MAX of R5. -/
abbrev Config.wordMax : Int := 9999

/-- MEM_SIZE of R5: the addresses are 0..99. -/
abbrev Config.memSize : Nat := 100

/-- RESET_IC of R5. -/
abbrev Config.resetIc : Nat := 0

/-- SENTINEL of R5: seen by the loader only, never a value inside the CORE. -/
abbrev Config.sentinel : Int := -99999

/-- DECODE_PRIORITY of R5 at its default, `OperandFirst`. DESIGN CHOICE of the spec (D3), log 6: unsafe for a claim that
names the kind; the decoder and the cycle also take the priority as an argument. -/
def Config.decodePriority : DecodePriority := .operandFirst

@[simp] theorem Config.wordMin_eq : Config.wordMin = -9999 := rfl
@[simp] theorem Config.wordMax_eq : Config.wordMax = 9999 := rfl
@[simp] theorem Config.memSize_eq : Config.memSize = 100 := rfl
@[simp] theorem Config.resetIc_eq : Config.resetIc = 0 := rfl
@[simp] theorem Config.sentinel_eq : Config.sentinel = -99999 := rfl

end Sys2Proof
end

