-- ==== Sys2Proof/Word.lean ====
section
/-! DEFINITION. The Word: "a signed integer constrained to [-9999, 9999], the unit of storage and computation"
(00_scope.md R6, R12). It is an integer with its range, not a bit vector (92_eei_decisions.md D1), and a value outside the
range cannot be built (70_reset_and_hazards.md R194, D17). -/

namespace Sys2Proof

/-- A Word of R6: an integer and the fact that it lies in the Word range. There is one zero (D16). -/
@[ext] structure Word where
  val : Int
  inRange : Config.wordMin ≤ val ∧ val ≤ Config.wordMax
deriving DecidableEq, Repr

/-- The Word 0: every register's reset value (10_state.md R35) and an unloaded cell (20_memory.md R46). -/
def Word.zero : Word := ⟨0, by decide⟩

@[simp] theorem Word.zero_val : Word.zero.val = 0 := rfl

theorem Word.lower (w : Word) : -9999 ≤ w.val := w.inRange.1

theorem Word.upper (w : Word) : w.val ≤ 9999 := w.inRange.2

theorem Word.val_injective {v w : Word} (h : v.val = w.val) : v = w := Word.ext h

end Sys2Proof
end

