-- ==== Sys2Proof/Machine/Arith.lean ====
section
/-! DEFINITION. The integer operations of 00_scope.md R8 and the word_validator of 40_instruction_cycle.md R80. -/

namespace Sys2Proof.Machine

/-- Truncating division of R8: `sign(a) * sign(b) * floor(|a| / |b|)`. Used by divide (43_arithmetic.md R124) and by the
decoder's `word / 100` (30_encoding.md R62, D2, log 7). -/
def tdiv (a b : Int) : Int := a.sign * b.sign * ((a.natAbs / b.natAbs : Nat) : Int)

/-- The remainder of R8: `a - b * tdiv(a, b)`. -/
def trem (a b : Int) : Int := a - b * tdiv a b

/-- `isValid(v)` of R80, for every integer `v` (50_blocks_and_interfaces.md R141). -/
def isValid (v : Int) : Bool := decide (Config.wordMin ≤ v) && decide (v ≤ Config.wordMax)

theorem isValid_iff (v : Int) : isValid v = true ↔ Config.wordMin ≤ v ∧ v ≤ Config.wordMax := by
  simp [isValid]

/-- The candidate `v` as a Word, if the validator accepts it (R81: tested after it is computed and before anything is
committed). -/
def validate (v : Int) : Option Word :=
  if h : isValid v = true then some ⟨v, (isValid_iff v).mp h⟩ else none

end Sys2Proof.Machine
end

