-- ==== Sys2Proof/Syntax.lean ====
section
/-! DEFINITION. The instruction set: one constructor per row of spec/opcode_table.json, in the order of the codes
(30_encoding.md R64). -/

namespace Sys2Proof

/-- The twelve operations of 30_encoding.md R64, each with its two-digit operand (R60). The operand is an address used as
it stands (R63); `halt` carries one too, decoded and then ignored (R66). -/
inductive Instr where
  /-- `10aa`: MEM[a] <- the next input element, validated (41_io.md R100). -/
  | read (a : Nat)
  /-- `11aa`: emit (a, MEM[a]) (41_io.md R101). -/
  | write (a : Nat)
  /-- `20aa`: ACC <- MEM[a] (42_load_store.md R110). -/
  | load (a : Nat)
  /-- `21aa`: MEM[a] <- ACC (42_load_store.md R111). -/
  | store (a : Nat)
  /-- `30aa`: ACC <- ACC + MEM[a], validated (43_arithmetic.md R121). -/
  | add (a : Nat)
  /-- `31aa`: ACC <- ACC - MEM[a], validated (43_arithmetic.md R122). -/
  | subtract (a : Nat)
  /-- `32aa`: ACC <- tdiv(ACC, MEM[a]) (43_arithmetic.md R124). -/
  | divide (a : Nat)
  /-- `33aa`: ACC <- ACC * MEM[a], validated (43_arithmetic.md R123). -/
  | multiply (a : Nat)
  /-- `40aa`: IC <- a (44_control.md R130). -/
  | branch (a : Nat)
  /-- `41aa`: IC <- a if ACC < 0, else advance (44_control.md R131). -/
  | branchNeg (a : Nat)
  /-- `42aa`: IC <- a if ACC = 0, else advance (44_control.md R132). -/
  | branchZero (a : Nat)
  /-- `43aa`: STATUS <- HALTED, the operand ignored (44_control.md R133). -/
  | halt (a : Nat)
deriving DecidableEq, Repr

end Sys2Proof
end

