-- ==== Sys2Proof/WellFormed.lean ====
section
/-! DEFINITION. When a term of `Instr` is an instruction of the machine: its operand is an address 0..99
(30_encoding.md R60, R61). That is the only check there is. -/

namespace Sys2Proof

/-- The operand field `d1 d0` of the instruction (30_encoding.md R60). -/
def Instr.operand : Instr → Nat
  | .read a => a
  | .write a => a
  | .load a => a
  | .store a => a
  | .add a => a
  | .subtract a => a
  | .divide a => a
  | .multiply a => a
  | .branch a => a
  | .branchNeg a => a
  | .branchZero a => a
  | .halt a => a

/-- The one check of 30_encoding.md R61, made of every operation alike (R66): the operand is in 0..99. -/
abbrev Instr.WellFormed (i : Instr) : Prop := i.operand < Config.memSize

end Sys2Proof
end

