-- ==== Sys2Proof/Decode.lean ====
section
/-! DEFINITION. The instruction_decoder of 40_instruction_cycle.md R84 to R86, total on every integer and rejecting by
name; after it the encoder of 30_encoding.md R61, the table-driven decoder of R72, and the reading of the opcode table's
16-character notation. -/

namespace Sys2Proof

open Sys2Proof.Machine

/-- What Decode yields (30_encoding.md R68): the operation with its operand, or one of the two decode errors. -/
inductive Decoded where
  | ok (i : Instr)
  | err (k : ErrorKind)
deriving DecidableEq, Repr

/-- The closed map of 30_encoding.md R64 from the quotient to the operation, `none` for "unknown"
(40_instruction_cycle.md R86). divide is 32 and multiply is 33 (90_conflicts.md C9). -/
def operationOf (q : Int) (a : Nat) : Option Instr :=
  if q = 10 then some (.read a)
  else if q = 11 then some (.write a)
  else if q = 20 then some (.load a)
  else if q = 21 then some (.store a)
  else if q = 30 then some (.add a)
  else if q = 31 then some (.subtract a)
  else if q = 32 then some (.divide a)
  else if q = 33 then some (.multiply a)
  else if q = 40 then some (.branch a)
  else if q = 41 then some (.branchNeg a)
  else if q = 42 then some (.branchZero a)
  else if q = 43 then some (.halt a)
  else none

/-- The decoder's condition `oor` of R85: the remainder is no address. -/
def operandOut (r : Int) : Bool := decide (r < 0) || decide (99 < r)

/-- Decode of R84 and R85 for either value of DECODE_PRIORITY. -/
def decodeWith (p : DecodePriority) (w : Int) : Decoded :=
  match operandOut (trem w 100), operationOf (tdiv w 100) (trem w 100).toNat, p with
  | false, some i, _ => .ok i
  | true, some _, _ => .err .operandOutOfRange
  | false, none, _ => .err .unknownOperation
  | true, none, .operandFirst => .err .operandOutOfRange
  | true, none, .opcodeFirst => .err .unknownOperation

/-- Decode at this machine's DECODE_PRIORITY. -/
def decode (w : Int) : Decoded := decodeWith Config.decodePriority w

/-- The operation code of the table of 30_encoding.md R64. -/
def Instr.code : Instr → Nat
  | .read _ => 10
  | .write _ => 11
  | .load _ => 20
  | .store _ => 21
  | .add _ => 30
  | .subtract _ => 31
  | .divide _ => 32
  | .multiply _ => 33
  | .branch _ => 40
  | .branchNeg _ => 41
  | .branchZero _ => 42
  | .halt _ => 43

/-- The twelve codes, `CODES` of 40_instruction_cycle.md R82. -/
def opcodes : List Nat := [10, 11, 20, 21, 30, 31, 32, 33, 40, 41, 42, 43]

/-- `encode(code, operand) = code * 100 + operand` of 30_encoding.md R61: the word of a well-formed instruction. -/
def encode (i : Instr) : Int := (i.code : Int) * 100 + (i.operand : Int)

/-- The instruction's word as a Word of memory; `none` only for an ill-formed instruction whose sum leaves the Word range. -/
def encodeWord (i : Instr) : Option Word := validate (encode i)

/-- The word ranges of the opcode table, in its order: "word_min" and "word_max" of a row and what the row selects
(30_encoding.md R64, R72). -/
structure TableRow where
  wordMin : Int
  wordMax : Int
  sample : Instr
deriving DecidableEq, Repr

/-- spec/opcode_table.json, its rows in the file's order; `sample` is the row's instruction with operand 0. -/
def opcodeTable : List TableRow :=
  [⟨1000, 1099, .read 0⟩, ⟨1100, 1199, .write 0⟩, ⟨2000, 2099, .load 0⟩, ⟨2100, 2199, .store 0⟩,
   ⟨3000, 3099, .add 0⟩, ⟨3100, 3199, .subtract 0⟩, ⟨3200, 3299, .divide 0⟩, ⟨3300, 3399, .multiply 0⟩,
   ⟨4000, 4099, .branch 0⟩, ⟨4100, 4199, .branchNeg 0⟩, ⟨4200, 4299, .branchZero 0⟩, ⟨4300, 4399, .halt 0⟩]

/-- The row's instruction with operand `a`. -/
def TableRow.withOperand (row : TableRow) (a : Nat) : Option Instr := operationOf row.sample.code a

/-- The decoder "written from the table alone" of 30_encoding.md R72: a negative word is no instruction; otherwise the row
with `word_min <= w <= word_max`, the operand being `w - word_min`. -/
def tableDecode (w : Int) : Option Instr :=
  if w < 0 then none
  else match opcodeTable.find? (fun row => decide (row.wordMin ≤ w) && decide (w ≤ row.wordMax)) with
    | some row => row.withOperand (w - row.wordMin).toNat
    | none => none

/-- The number written by four decimal digits `d3 d2 d1 d0` spelled as four binary digits each, the notation of the table's
16-character "encoding" (30_encoding.md R72); `none` if one of the four is no decimal digit or a bit above the sixteen is
set. A notation only, no claim about storage (log 11). -/
def wordOfNotation (w : Nat) : Option Int :=
  let d3 := w / 4096
  let d2 := w / 256 % 16
  let d1 := w / 16 % 16
  let d0 := w % 16
  if d3 < 10 ∧ d2 < 10 ∧ d1 < 10 ∧ d0 < 10 then some ((1000 * d3 + 100 * d2 + 10 * d1 + d0 : Nat) : Int)
  else none

/-- The instruction this decoder reads from a row of spec/opcode_table.json laid out in the table's own notation. -/
def decodeTableWord (nbits w : Nat) : Option Instr :=
  match wordOfNotation (w % 2 ^ nbits) with
  | some v =>
    match decode v with
    | .ok i => some i
    | .err _ => none
  | none => none

end Sys2Proof
end

