-- ==== Sys2Proof/Machine/State.lean ====
section
/-! DEFINITION. The state of the machine: the nine items of 10_state.md R20 and the input sequence, a parameter of the run
that the host's interface leaves no other place for (log 4). Plain data. -/

namespace Sys2Proof.Machine

/-- The control state of the loop (10_state.md R30). -/
inductive Status where
  | run
  | halted
  | failed (k : ErrorKind)
deriving DecidableEq, Repr

/-- A cell of memory: its address and the Word it holds. The Word is the only addressable unit (20_memory.md R40, R42),
so there are no bytes to list (log 2). -/
abbrev Cell := Nat × Word

/-- The 100 cells of 10_state.md R27, as the list of those that do not hold 0, addresses strictly rising. -/
abbrev Memory := List Cell

/-- The whole state of the machine. -/
structure State where
  /-- ACC, the accumulator (10_state.md R21). -/
  acc : Word
  /-- IC, the instruction counter, 0..100 (R22, R23). -/
  ic : Nat
  /-- IR, the raw fetched word (R24). -/
  ir : Word
  /-- OPC, the operation code last decoded, 0 before the first (R25). -/
  opc : Nat
  /-- OPD, the operand last decoded (R26). -/
  opd : Nat
  /-- MEM[0..99] (R27). -/
  mem : Memory
  /-- INPUTS, the run's input sequence: a parameter, written by no step (R28; log 4). -/
  inputs : List Int
  /-- INCUR, the index of the next unconsumed input element (R28). -/
  incur : Nat
  /-- OUT, the pairs emitted so far, oldest first (R29). -/
  out : List Cell
  /-- STATUS (R30). -/
  status : Status
deriving DecidableEq, Repr

/-- Why no next state exists. -/
inductive Fault where
  /-- Raised by `step` when STATUS is HALTED: "terminal, loop exits only here" (10_state.md R30). Safe: no step is enabled
  there (40_instruction_cycle.md R82). -/
  | halted
  /-- Raised by `step` when STATUS is FAILED(k): quiescent and never final (60_exceptions.md R169). Safe: no step is
  enabled there (R168). -/
  | failed (k : ErrorKind)
  /-- Raised by a meaning given an ill-formed instruction, whose operand `a` is no address: 20_memory.md R45 says that
  Execute never presents one. Safe: Decode yields no such instruction (log 10). -/
  | noSuchAddress (a : Nat)
deriving DecidableEq, Repr

/-- Why an instruction has no meaning. No arm of `exec` answers with it. -/
inductive Refusal where
  /-- Raised by an arm of `exec` that has no meaning yet. Safe: the machine stops. -/
  | notModelled (mnemonic : String)
deriving DecidableEq, Repr

/-- The machine at the start of a run (10_state.md R35), with the image of a loader that loaded nothing, every cell 0
(20_memory.md R46), and no input. DESIGN CHOICE, logs 3 and 4: IMAGE and INPUTS are parameters of the run
(`State.start`). -/
def State.reset : State where
  acc := Word.zero
  ic := Config.resetIc
  ir := Word.zero
  opc := 0
  opd := 0
  mem := []
  inputs := []
  incur := 0
  out := []
  status := .run

end Sys2Proof.Machine
end

