-- ==== Sys2Proof/Machine/Ops.lean ====
section
/-! DEFINITION. The named operations of 00_scope.md R9 over memory, registers and the run: MemRead, MemWrite, InAvail,
InPop, Emit, advance, halt_run and raise. -/

namespace Sys2Proof.Machine

/-- How one step, or one instruction's Execute, ends. -/
abbrev Result := Host.Outcome State Fault Refusal

/-- What a cell reads as when no entry lists it: 0, the loader's "defined default (zero)" (70_reset_and_hazards.md R191,
R195). -/
def Memory.unlisted : Word := Word.zero

/-- The Word in cell `a` (20_memory.md R44). -/
def Memory.read : Memory → Nat → Word
  | [], _ => Memory.unlisted
  | (b, v) :: m, a => if b = a then v else Memory.read m a

/-- The memory without an entry for cell `a`. -/
def Memory.erase : Memory → Nat → Memory
  | [], _ => []
  | (b, v) :: m, a => if b = a then Memory.erase m a else (b, v) :: Memory.erase m a

/-- The memory with the entry (a, v) before the first one of a higher address. -/
def Memory.insert : Memory → Nat → Word → Memory
  | [], a, v => [(a, v)]
  | (b, u) :: m, a, v => if a < b then (a, v) :: (b, u) :: m else (b, u) :: Memory.insert m a v

/-- Cell `a` replaced by `v`, "and does nothing else" (20_memory.md R44); an entry equal to what an unlisted cell reads as
is not kept. -/
def Memory.write (m : Memory) (a : Nat) (v : Word) : Memory :=
  if v = Memory.unlisted then Memory.erase m a else Memory.insert (Memory.erase m a) a v

/-- Addresses at least `lo` and strictly rising, each one of 0..99, and no entry that an unlisted cell would read as. -/
def Memory.wfFrom : Nat → Memory → Bool
  | _, [] => true
  | lo, (a, v) :: m => decide (lo ≤ a) && decide (a < Config.memSize) && decide (v ≠ Memory.unlisted) && Memory.wfFrom (a + 1) m

/-- The canonical form of memory: equal memories are equal lists. -/
def Memory.wf (m : Memory) : Bool := Memory.wfFrom 0 m

/-- `MemRead(a, 1)` of R9. -/
abbrev memRead (s : State) (a : Nat) : Word := Memory.read s.mem a

/-- `MemWrite(a, 1, v)` of R9. -/
def memWrite (a : Nat) (v : Word) (s : State) : State := { s with mem := Memory.write s.mem a v }

/-- `ACC <- v`. -/
def setAcc (v : Word) (s : State) : State := { s with acc := v }

/-- `IC <- a`, a taken branch (44_control.md R130). -/
def branchTo (a : Nat) (s : State) : State := { s with ic := a }

/-- `advance` of R9: `IC <- IC + 1`. From 99 it gives 100 and does not wrap (10_state.md R23). -/
def advance (s : State) : State := { s with ic := s.ic + 1 }

/-- The element at the cursor, if there is one: `InAvail()` and what `InPop()` returns (R9). -/
def nextInput (s : State) : Option Int := s.inputs[s.incur]?

/-- `InPop()` of R9: the cursor moves by one, with no lookahead or rewind (10_state.md R28). -/
def inPop (s : State) : State := { s with incur := s.incur + 1 }

/-- `Emit(a, v)` of R9: the pair is appended to OUT (10_state.md R29). -/
def emit (a : Nat) (v : Word) (s : State) : State := { s with out := s.out ++ [(a, v)] }

/-- `halt_run` of R9: STATUS <- HALTED. -/
def haltRun (s : State) : State := { s with status := .halted }

/-- `raise k` of R9 and 60_exceptions.md R165, R167: STATUS <- FAILED(k) and the step ends. No register is saved, there is
no handler and control goes nowhere; what earlier lines of the same step wrote stays. There is no return from it (R168);
the only way out is reset (`State.assertReset`). -/
def raise (k : ErrorKind) (s : State) : Result := .next { s with status := .failed k }

/-- What the four arithmetic instructions share (43_arithmetic.md R120): the candidate `c` is tested, and only then
committed to ACC, and the counter advances. -/
def commitAcc (c : Int) (s : State) : Result :=
  match validate c with
  | some v => .next (advance (setAcc v s))
  | none => raise .invalidWord s

end Sys2Proof.Machine
end

