-- ==== Sys2Proof/Machine/Operands.lean ====
section
/-! DEFINITION. The one operand form: direct absolute, the operand as it stands (20_memory.md R45, 30_encoding.md R63). -/

namespace Sys2Proof.Machine

/-- An instruction whose operand `a` is an address of memory or a branch target. Decode has refused every other operand
before dispatch (20_memory.md R45), so the fault is only for a term of `Instr` that is not well formed (log 10). -/
def atAddress (a : Nat) (r : Result) : Result :=
  if a < Config.memSize then r else .fault (.noSuchAddress a)

/-- The operand cell of `a` read by `MemRead(OPD, 1)`, for the instructions that read one (20_memory.md R41). -/
def withCell (a : Nat) (s : State) (f : Word → Result) : Result := atAddress a (f (memRead s a))

end Sys2Proof.Machine
end

