-- ==== Sys2Proof/Machine/Arithmetic.lean ====
section
/-! DEFINITION. add, subtract, multiply and divide (43_arithmetic.md). ACC is the left operand and the cell the right one
(R120); every candidate is the exact integer (R125). -/

namespace Sys2Proof.Machine

/-- add, R121. -/
def execAdd (a : Nat) (s : State) : Result :=
  withCell a s fun m => commitAcc (s.acc.val + m.val) s

/-- subtract, R122: accumulator minus memory. -/
def execSubtract (a : Nat) (s : State) : Result :=
  withCell a s fun m => commitAcc (s.acc.val - m.val) s

/-- multiply, R123. -/
def execMultiply (a : Nat) (s : State) : Result :=
  withCell a s fun m => commitAcc (s.acc.val * m.val) s

/-- divide, R124: the divisor is tested before any quotient is formed; the quotient truncates toward zero. The validator
stays in the path because the source lists it; it never refuses a quotient (R126, log 15). -/
def execDivide (a : Nat) (s : State) : Result :=
  withCell a s fun m =>
    if m.val = 0 then raise .divisionByZero s else commitAcc (tdiv s.acc.val m.val) s

end Sys2Proof.Machine
end

