-- ==== Sys2Proof/Machine/Flags.lean ====
section
/-! DEFINITION. There is no flag, condition code or predicate register (10_state.md R31). What stands here is all there is
in their place: the two conditions that a branch computes from ACC at the moment it executes. -/

namespace Sys2Proof.Machine

/-- The condition of branchNeg (44_control.md R131): `ACC < 0`; 0 is not negative. -/
def accNegative (s : State) : Bool := decide (s.acc.val < 0)

/-- The condition of branchZero (44_control.md R132): `ACC = 0`. -/
def accZero (s : State) : Bool := decide (s.acc.val = 0)

end Sys2Proof.Machine
end

