-- ==== Sys2Proof/Machine/Control.lean ====
section
/-! DEFINITION. branch, branchNeg, branchZero and halt (44_control.md). -/

namespace Sys2Proof.Machine

/-- branch, R130: the operand is the target, absolute. -/
def execBranch (a : Nat) (s : State) : Result :=
  atAddress a (.next (branchTo a s))

/-- branchNeg, R131. -/
def execBranchNeg (a : Nat) (s : State) : Result :=
  atAddress a (.next (if accNegative s then branchTo a s else advance s))

/-- branchZero, R132. -/
def execBranchZero (a : Nat) (s : State) : Result :=
  atAddress a (.next (if accZero s then branchTo a s else advance s))

/-- halt, R133: IC keeps the address of the halt instruction. The operand is ignored; that it is an address is Decode's
check of every instruction alike (30_encoding.md R66). -/
def execHalt (a : Nat) (s : State) : Result :=
  atAddress a (.next (haltRun s))

end Sys2Proof.Machine
end

