-- ==== Sys2Proof/Machine/InputOutput.lean ====
section
/-! DEFINITION. read and write (41_io.md). -/

namespace Sys2Proof.Machine

/-- read, R100: consume, then validate, then store. Without an element nothing is consumed; an element that fails
validation has been consumed (D7, log 8). -/
def execRead (a : Nat) (s : State) : Result :=
  atAddress a <|
    match nextInput s with
    | none => raise .inputExhausted s
    | some v =>
      match validate v with
      | none => raise .invalidWord (inPop s)
      | some w => .next (advance (memWrite a w (inPop s)))

/-- write, R101: the pair (address, value) is emitted; the sink cannot refuse (D12). -/
def execWrite (a : Nat) (s : State) : Result :=
  withCell a s fun v => .next (advance (emit a v s))

end Sys2Proof.Machine
end

