-- ==== Sys2Proof/Machine/LoadStore.lean ====
section
/-! DEFINITION. load and store (42_load_store.md). -/

namespace Sys2Proof.Machine

/-- load, R110: the whole Word moves with its sign; it is a Word already and is not validated. -/
def execLoad (a : Nat) (s : State) : Result :=
  withCell a s fun v => .next (advance (setAcc v s))

/-- store, R111: ACC keeps its value. -/
def execStore (a : Nat) (s : State) : Result :=
  atAddress a (.next (advance (memWrite a s.acc s)))

end Sys2Proof.Machine
end

