-- ==== Sys2Proof/Machine/Cycle.lean ====
section
/-! DEFINITION. The instruction cycle of 40_instruction_cycle.md R82 to R85: Fetch, Decode, Execute, with the run's control
state around them; and the placing of one word where the next Fetch reads. -/

namespace Sys2Proof.Machine

/-- The fetch unit's check (R83, 50_blocks_and_interfaces.md R145): IC is in 0..99. -/
def counterInRange (s : State) : Bool := decide (s.ic < Config.memSize)

/-- `IR <- MemRead(IC, 1)` (R83): written by every Fetch that succeeds, also when Decode or Execute then fails
(10_state.md R24). -/
def loadIr (s : State) : State := { s with ir := memRead s s.ic }

/-- `OPC <- q`, `OPD <- r` (R85): the decoder's output latches, loaded only when Decode succeeds. -/
def latchDecoded (i : Instr) (s : State) : State := { s with opc := i.code, opd := i.operand }

/-- What the machine's next Fetch and Decode yield in a running state: `none` if Fetch fails. -/
def fetchDecode (p : DecodePriority) (s : State) : Option Decoded :=
  if counterInRange s then some (decodeWith p (memRead s s.ic).val) else none

/-- One pass Fetch, Decode, Execute (R82), for either value of DECODE_PRIORITY. The first phase that raises ends the step
(60_exceptions.md R164). -/
def runCycle (p : DecodePriority) (s : State) : Result :=
  match fetchDecode p s with
  | none => raise .counterOutOfRange s
  | some (.err k) => raise k (loadIr s)
  | some (.ok i) => exec i (latchDecoded i (loadIr s))

/-- The step (R82): enabled iff STATUS = RUN. In HALTED and in FAILED(k) there is none, and the model stops with a fault of
that name (10_state.md R30, 60_exceptions.md R168, R169; log 5). -/
def stepWith (p : DecodePriority) (s : State) : Result :=
  match s.status with
  | .run => runCycle p s
  | .halted => .fault .halted
  | .failed k => .fault (.failed k)

/-- The instruction that a step from `s` executes; `none` if no step is enabled or the step fails at Fetch or Decode. -/
def currentInstr (s : State) : Option Instr :=
  if s.status = .run then
    match fetchDecode Config.decodePriority s with
    | some (.ok i) => some i
    | _ => none
  else none

/-- The address the next Fetch reads, for the host's placing of a word: IC, or 0 where IC is no address (log 11). -/
def fetchPlace (s : State) : Nat := if counterInRange s then s.ic else Config.resetIc

/-- The Word that the table's notation writes with these bits; 0, an illegal instruction word, where the bits are no four
decimal digits (log 11). -/
def notationWord (nbits w : Nat) : Word :=
  match wordOfNotation (w % 2 ^ nbits) with
  | some v =>
    match validate v with
    | some u => u
    | none => Word.zero
  | none => Word.zero

/-- The state whose next step runs the word: the word stands in the cell at IC, and the machine runs. -/
def placeFetchWord (s : State) (nbits w : Nat) : State :=
  { memWrite (fetchPlace s) (notationWord nbits w) s with ic := fetchPlace s, status := .run }

end Sys2Proof.Machine
end

