-- ==== Sys2Proof/Machine/Step.lean ====
section
/-! DEFINITION. The machine's step and the host's placing of one instruction word. -/

namespace Sys2Proof.Machine

/-- The machine's one transition (40_instruction_cycle.md R82) at this machine's DECODE_PRIORITY. -/
def step (s : State) : Host.Outcome State Fault Refusal := stepWith Config.decodePriority s

/-- `s` with the instruction whose bits in the opcode table's notation are `w` stored where `step` fetches next, so that
the very next step runs it (log 11). -/
def State.withFetchWord (s : State) (nbits w : Nat) : State := placeFetchWord s nbits w

end Sys2Proof.Machine
end

