-- ==== Sys2Proof/Machine/Boot.lean ====
section
/-! DEFINITION. The start of a run: the loader's contract on the values of a program text, the state that a run starts in
and the reset pin (70_reset_and_hazards.md R190 to R196, 10_state.md R35). -/

namespace Sys2Proof.Machine

/-- What the loader answers (R162, R195): an image, or LoadFailure, and then no run exists. -/
inductive Loaded where
  | image (m : Memory)
  | failure (k : ErrorKind)
deriving DecidableEq, Repr

/-- The entry of cell `n` put before an image of higher cells. -/
def consCell (n : Nat) (w : Word) (m : Memory) : Memory := if w = Memory.unlisted then m else (n, w) :: m

/-- The loader's contract R195 from cell `n` on, for a text whose lines have been read as integers: (a) it stops at the
sentinel, (b) it rejects a value that is no Word, (c) it rejects a value that would be the 101st, (d) every cell beyond the
last one loaded is 0. A text that ends without the sentinel is rejected too (DESIGN CHOICE, log 13). -/
def loadFrom : Nat → List Int → Loaded
  | _, [] => .failure .loadFailure
  | n, v :: vs =>
    if v = Config.sentinel then .image []
    else
      match validate v with
      | none => .failure .loadFailure
      | some w =>
        if n < Config.memSize then
          match loadFrom (n + 1) vs with
          | .image m => .image (consCell n w m)
          | .failure k => .failure k
        else .failure .loadFailure

/-- The n-th value before the sentinel, counting from 0, goes to address n (R195). -/
def loadProgram (values : List Int) : Loaded := loadFrom 0 values

/-- The state at the start of a run (10_state.md R35), for the image and the input sequence of that run (R196). -/
def State.start (image : Memory) (inputs : List Int) : State :=
  { State.reset with mem := image, inputs := inputs }

/-- `rst` asserted (R190): every item of state except the memory at its value of R35, from any state whatever; the memory
is not touched (R191) and the input source stands at its first element again (50_blocks_and_interfaces.md R150). -/
def State.assertReset (s : State) : State := State.start s.mem s.inputs

end Sys2Proof.Machine
end

