-- ==== Sys2Proof/Machine/Ports.lean ====
section
/-! DEFINITION. The ports of the CORE as views of the model: what the status, input and observation ports show at a step
boundary, and what one step does at the memory, input and output ports (50_blocks_and_interfaces.md R148 to R152,
20_memory.md R41). The names are the spec's own choice (D12); no step depends on them. -/

namespace Sys2Proof.Machine

/-- The code of an error kind on the `err_kind` pins (60_exceptions.md R161); 0 is "no error". -/
def errorNumber : ErrorKind → Nat
  | .loadFailure => 1
  | .operandOutOfRange => 2
  | .unknownOperation => 3
  | .counterOutOfRange => 4
  | .inputExhausted => 5
  | .invalidWord => 6
  | .divisionByZero => 7

/-- The two-bit encoding of STATUS beside `err_kind` (R161). -/
def statusNumber : Status → Nat
  | .run => 0
  | .halted => 1
  | .failed _ => 2

/-- The ports that show the state at a step boundary (R148). -/
structure Pins where
  running : Bool
  halted : Bool
  failed : Bool
  errKind : Nat
  inAvail : Bool
  /-- meaningful only when `inAvail` -/
  inData : Option Int
  obsAcc : Word
  obsIc : Nat
  obsIr : Word
  obsOpc : Nat
  obsOpd : Nat
deriving DecidableEq, Repr

/-- `err_kind`: the code of `k` in FAILED(k), 0 when not failed (R148). -/
def errKindPins : Status → Nat
  | .failed k => errorNumber k
  | _ => 0

/-- What the ports show of a state (R148, R150 to R152). -/
def pins (s : State) : Pins where
  running := decide (statusNumber s.status = 0)
  halted := decide (statusNumber s.status = 1)
  failed := decide (statusNumber s.status = 2)
  errKind := errKindPins s.status
  inAvail := decide (s.incur < s.inputs.length)
  inData := nextInput s
  obsAcc := s.acc
  obsIc := s.ic
  obsIr := s.ir
  obsOpc := s.opc
  obsOpd := s.opd

/-- The whole memory as the reporter reads it, without mutation (R151). -/
def dumpMemory (s : State) : List Word := (List.range Config.memSize).map (memRead s)

/-- What one step does at the memory, input and output ports (R149 to R151). -/
structure Activity where
  fetchRead : Option Nat
  dataRead : Option Nat
  dataWrite : Option Cell
  popped : Bool
  emitted : Option Cell
deriving DecidableEq, Repr

/-- No access, no pop, no emit. -/
def Activity.none : Activity := ⟨Option.none, Option.none, Option.none, false, Option.none⟩

/-- The row of 20_memory.md R41 for the executed instruction, with the values that go over the ports. -/
def executeActivity (i : Instr) (s : State) : Activity :=
  match i with
  | .read a =>
    { Activity.none with
      dataWrite := ((nextInput s).bind validate).map fun w => (a, w)
      popped := (nextInput s).isSome }
  | .write a => { Activity.none with dataRead := some a, emitted := some (a, memRead s a) }
  | .load a => { Activity.none with dataRead := some a }
  | .store a => { Activity.none with dataWrite := some (a, s.acc) }
  | .add a => { Activity.none with dataRead := some a }
  | .subtract a => { Activity.none with dataRead := some a }
  | .divide a => { Activity.none with dataRead := some a }
  | .multiply a => { Activity.none with dataRead := some a }
  | .branch _ => Activity.none
  | .branchNeg _ => Activity.none
  | .branchZero _ => Activity.none
  | .halt _ => Activity.none

/-- What a step from `s` does at the ports: one fetch read at IC, then at most one data access (R149); nothing where no
step is enabled or the counter is out of range (R145). -/
def stepActivity (s : State) : Activity :=
  if s.status = .run ∧ counterInRange s = true then
    match currentInstr s with
    | some i => { executeActivity i s with fetchRead := some s.ic }
    | none => { Activity.none with fetchRead := some s.ic }
  else Activity.none

end Sys2Proof.Machine
end

