-- ==== Sys2Proof/Safety.lean ====
section
/-! DEFINITION. The terms that claims use: the invariant of 10_state.md R33, the run of 40_instruction_cycle.md R90, and
its ends (R92, 60_exceptions.md R169). -/

namespace Sys2Proof.Machine

/-- OPC is 0 or one of the twelve codes (10_state.md R25, R33 d). -/
abbrev legalOpc (c : Nat) : Prop := c = 0 ∨ c ∈ opcodes

/-- What holds at every step boundary (10_state.md R33 a to e, R26): the memory is in its canonical form, every cell it
lists being one of 0..99; OPD, IC, OPC and INCUR are in their ranges; every address emitted is one of 0..99; STATUS never
holds FAILED(LoadFailure) (60_exceptions.md R162); and unless the run has failed, OPC and OPD are the two fields of IR.
That ACC, IR and every cell are Words is their type. -/
structure State.Inv (s : State) : Prop where
  memory : Memory.wf s.mem = true
  counter : s.ic ≤ 100
  opcode : legalOpc s.opc
  operand : s.opd ≤ 99
  cursor : s.incur ≤ s.inputs.length
  emitted : ∀ c ∈ s.out, c.1 ≤ 99
  loader : s.status ≠ .failed .loadFailure
  decoded : (∀ k, s.status ≠ .failed k) → (s.opc : Int) = tdiv s.ir.val 100 ∧ (s.opd : Int) = trem s.ir.val 100

/-- The outcome with its next state, if it is one, changed by `f`: for claims that compare two runs. -/
def mapNext (f : State → State) : Result → Result
  | .next s => .next (f s)
  | .fault r => .fault r
  | .refused r => .refused r

/-- The state after `n` steps, staying where no step is enabled: a run under fuel (40_instruction_cycle.md R91). -/
def runFor : Nat → State → State
  | 0, s => s
  | n + 1, s =>
    match step s with
    | .next t => runFor n t
    | _ => s

/-- 1 if the step from `s` is a read operation that finds an element (10_state.md R33 e). -/
def readsFound (s : State) : Nat :=
  match currentInstr s with
  | some (.read _) => if s.incur < s.inputs.length then 1 else 0
  | _ => 0

/-- 1 if the step from `s` is a write operation (10_state.md R33 f). -/
def writesDone (s : State) : Nat :=
  match currentInstr s with
  | some (.write _) => 1
  | _ => 0

/-- `Run image inputs r w s`: the run from the reset state for this image and these inputs (40_instruction_cycle.md R90)
can be at `s`, with `r` reads that found an element and `w` writes behind it. -/
inductive Run (image : Memory) (inputs : List Int) : Nat → Nat → State → Prop where
  | start : Run image inputs 0 0 (State.start image inputs)
  | step {r w : Nat} {s t : State} (before : Run image inputs r w s) (h : step s = .next t) :
      Run image inputs (r + readsFound s) (w + writesDone s) t

/-- The normal end of a run, the only one (40_instruction_cycle.md R92, 60_exceptions.md R169). -/
abbrev State.Halted (s : State) : Prop := s.status = .halted

/-- The run was aborted: a fault, never a final state (60_exceptions.md R169, D21). -/
abbrev State.Failed (s : State) : Prop := ∃ k, s.status = .failed k

/-- The step from `s` fails with `k` (60_exceptions.md R160). -/
abbrev FailsWith (p : DecodePriority) (s : State) (k : ErrorKind) : Prop :=
  ∃ t, stepWith p s = .next t ∧ t.status = .failed k

/-- A value in the Word range, as the rules write it (40_instruction_cycle.md R80). -/
abbrev InWordRange (v : Int) : Prop := -9999 ≤ v ∧ v ≤ 9999

/-- The step from `s` takes a branch to a target at or below its own address (40_instruction_cycle.md R91). -/
def takesBackwardBranch (s : State) : Bool :=
  match currentInstr s with
  | some (.branch a) => decide (a ≤ s.ic)
  | some (.branchNeg a) => accNegative s && decide (a ≤ s.ic)
  | some (.branchZero a) => accZero s && decide (a ≤ s.ic)
  | _ => false

end Sys2Proof.Machine
end

