-- ==== Sys2Proof/Certificates/Slice0/Obligations.lean ====
section
/-! DEFINITION. The statements for the provers. `R<n>` is a rule of spec/, `D<n>` a decision of spec/92_eei_decisions.md,
`log <n>` a row of notes/assumptions/. Where `p` is quantified, the statement holds for both values of DECODE_PRIORITY. -/

open Sys2Proof Sys2Proof.Machine

/-! ### The arithmetic under the instructions -/

/-- R8: the quotient rounds toward zero; the remainder is what is left, zero or of the dividend's sign, and smaller than
the divisor; the rule's own examples. -/
def Obligations.DivisionTruncatesTowardZero : Prop :=
  (∀ a b : Int, b ≠ 0 →
    tdiv a b = a.sign * b.sign * ((a.natAbs / b.natAbs : Nat) : Int) ∧
    trem a b = a - b * tdiv a b ∧
    (trem a b = 0 ∨ (trem a b).sign = a.sign) ∧
    (trem a b).natAbs < b.natAbs ∧
    (tdiv a b).natAbs = a.natAbs / b.natAbs) ∧
  (tdiv 7 2 = 3 ∧ tdiv (-7) 2 = -3 ∧ tdiv 7 (-2) = -3 ∧ tdiv (-7) (-2) = 3 ∧ trem (-1005) 100 = -5 ∧
    tdiv (-1005) 100 = -10 ∧ tdiv (-5) 100 = 0 ∧ trem (-5) 100 = -5)

/-- R80: the validator accepts exactly -9999..9999, of every integer; the rule's boundary. -/
def Obligations.ValidatorAcceptsExactlyTheWordRange : Prop :=
  (∀ v : Int, isValid v = true ↔ -9999 ≤ v ∧ v ≤ 9999) ∧
  isValid (-9999) = true ∧ isValid 9999 = true ∧ isValid (-10000) = false ∧ isValid 10000 = false ∧ isValid 0 = true

/-- R126: the quotient of two Words is a Word, so divide never raises InvalidWord, and a divide that raises
DivisionByZero has a zero divisor. -/
def Obligations.DivideQuotientIsAlwaysAWord : Prop :=
  (∀ a m : Word, m.val ≠ 0 →
    (tdiv a.val m.val).natAbs = a.val.natAbs / m.val.natAbs ∧
    (tdiv a.val m.val).natAbs ≤ a.val.natAbs ∧
    isValid (tdiv a.val m.val) = true) ∧
  (∀ (a : Nat) (s t : State), s.status = .run → exec (.divide a) s = .next t →
    t.status ≠ .failed .invalidWord ∧ (t.status = .failed .divisionByZero → (memRead s a).val = 0))

/-- R127: division at every sign combination and at zero, and what the two conditional branches make of the one zero. -/
def Obligations.DivisionAtEverySignAndAtZero : Prop :=
  (∀ a m : Int,
    (0 ≤ a → 0 < m → tdiv a m = a / m) ∧
    (a < 0 → 0 < m → tdiv a m = -(-a / m)) ∧
    (0 ≤ a → m < 0 → tdiv a m = -(a / -m)) ∧
    (a < 0 → m < 0 → tdiv a m = -a / -m) ∧
    (m ≠ 0 → a = tdiv a m * m + trem a m ∧ (trem a m = 0 ∨ (trem a m).sign = a.sign))) ∧
  (∀ (a : Nat) (s : State), a < 100 → (memRead s a).val = 0 →
    exec (.divide a) s = .next { s with status := .failed .divisionByZero }) ∧
  (∀ (a b : Nat) (s : State), a < 100 → b < 100 → s.acc.val < 0 → (memRead s a).val ≠ 0 →
    tdiv s.acc.val (memRead s a).val = 0 →
    ∃ t, exec (.divide a) s = .next t ∧ t.acc = Word.zero ∧
      exec (.branchNeg b) t = .next { t with ic := t.ic + 1 } ∧ exec (.branchZero b) t = .next { t with ic := b })

/-! ### The encoding -/

/-- R69: decode then encode is the identity on legal words, and encode then decode on well-formed instructions. -/
def Obligations.DecodeAndEncodeAreInverse : Prop :=
  (∀ (p : DecodePriority) (i : Instr), i.WellFormed → decodeWith p (encode i) = .ok i) ∧
  (∀ (p : DecodePriority) (w : Int) (i : Instr), decodeWith p w = .ok i → i.WellFormed ∧ encode i = w) ∧
  (∀ c ∈ opcodes, ∀ a : Nat, a < 100 → tdiv ((c : Int) * 100 + a) 100 = c ∧ trem ((c : Int) * 100 + a) 100 = a)

/-- R67, R68, R61: what Decode makes of every Word, by the words' ranges, under both priorities. The kinds of the negative
words rest on the decoder's truncating division, a choice (log 7, D2). -/
def Obligations.DecodePartitionsAllWords : Prop :=
  ∀ w : Word,
    let legal := (1000 ≤ w.val ∧ w.val ≤ 1199) ∨ (2000 ≤ w.val ∧ w.val ≤ 2199) ∨ (3000 ≤ w.val ∧ w.val ≤ 3399) ∨
      (4000 ≤ w.val ∧ w.val ≤ 4399)
    (legal → ∃ i : Instr, i.WellFormed ∧ w.val = (i.code : Int) * 100 + i.operand ∧ ∀ p, decodeWith p w.val = .ok i) ∧
    (0 ≤ w.val → ¬ legal → ∀ p, decodeWith p w.val = .err .unknownOperation) ∧
    (w.val < 0 → (100 : Int) ∣ w.val → ∀ p, decodeWith p w.val = .err .unknownOperation) ∧
    (w.val < 0 → ¬ (100 : Int) ∣ w.val →
      decodeWith .operandFirst w.val = .err .operandOutOfRange ∧ decodeWith .opcodeFirst w.val = .err .unknownOperation)

/-- R72: the decoder written from the opcode table alone accepts the same words and yields the same instructions. -/
def Obligations.TableDecoderAgreesWithDecode : Prop :=
  ∀ (p : DecodePriority) (w : Int) (i : Instr), decodeWith p w = .ok i ↔ tableDecode w = some i

/-- R64: the first and the last word of each row, written out, with the operation each stands for. -/
def Obligations.WrittenOutWordsDecode : Prop :=
  decode 1000 = .ok (.read 0) ∧ decode 1099 = .ok (.read 99) ∧ decode 1100 = .ok (.write 0) ∧ decode 1199 = .ok (.write 99) ∧
  decode 2000 = .ok (.load 0) ∧ decode 2099 = .ok (.load 99) ∧ decode 2100 = .ok (.store 0) ∧ decode 2199 = .ok (.store 99) ∧
  decode 3000 = .ok (.add 0) ∧ decode 3099 = .ok (.add 99) ∧ decode 3100 = .ok (.subtract 0) ∧ decode 3199 = .ok (.subtract 99) ∧
  decode 3200 = .ok (.divide 0) ∧ decode 3299 = .ok (.divide 99) ∧ decode 3300 = .ok (.multiply 0) ∧
  decode 3399 = .ok (.multiply 99) ∧ decode 4000 = .ok (.branch 0) ∧ decode 4099 = .ok (.branch 99) ∧
  decode 4100 = .ok (.branchNeg 0) ∧ decode 4199 = .ok (.branchNeg 99) ∧ decode 4200 = .ok (.branchZero 0) ∧
  decode 4299 = .ok (.branchZero 99) ∧ decode 4300 = .ok (.halt 0) ∧ decode 4399 = .ok (.halt 99)

/-- R72: the table's 16-bit notation of a row, with any two decimal operand digits, reads as that row's instruction. Any of
the four digits above 9 makes the pattern no word at all, the model's choice (log 11). -/
def Obligations.TableNotationReadsDecimalDigits : Prop :=
  (∀ i : Instr, i.WellFormed →
    decodeTableWord 16 (i.code / 10 * 4096 + i.code % 10 * 256 + i.operand / 10 * 16 + i.operand % 10) = some i) ∧
  (∀ w : Nat, w < 65536 → (9 < w / 4096 ∨ 9 < w / 256 % 16 ∨ 9 < w / 16 % 16 ∨ 9 < w % 16) → decodeTableWord 16 w = none)

/-! ### The twelve instructions: encoding, result and frame -/

/-- R100: read. Every form: no element, an element that is no Word, an element that is one. That a rejected element is
consumed is a choice (log 8, D7). -/
def Obligations.ReadConsumesValidatesAndStores : Prop :=
  ∀ a : Nat, a < 100 →
    (∀ p, decodeWith p (1000 + (a : Int)) = .ok (.read a)) ∧
    ∀ s : State,
      (s.inputs.length ≤ s.incur → exec (.read a) s = .next { s with status := .failed .inputExhausted }) ∧
      (∀ h : s.incur < s.inputs.length,
        (¬ InWordRange s.inputs[s.incur] →
          exec (.read a) s = .next { s with incur := s.incur + 1, status := .failed .invalidWord }) ∧
        (∀ w : Word, w.val = s.inputs[s.incur] →
          ∃ m, exec (.read a) s = .next { s with mem := m, incur := s.incur + 1, ic := s.ic + 1 } ∧
            ∀ b, Memory.read m b = if b = a then w else memRead s b))

/-- R101: write appends (address, value) to OUT and advances; nothing else changes. -/
def Obligations.WriteEmitsAddressAndValue : Prop :=
  ∀ a : Nat, a < 100 →
    (∀ p, decodeWith p (1100 + (a : Int)) = .ok (.write a)) ∧
    ∀ s : State, exec (.write a) s = .next { s with out := s.out ++ [(a, memRead s a)], ic := s.ic + 1 }

/-- R110: load moves the cell into ACC and advances; nothing else changes. -/
def Obligations.LoadMovesTheCellIntoAcc : Prop :=
  ∀ a : Nat, a < 100 →
    (∀ p, decodeWith p (2000 + (a : Int)) = .ok (.load a)) ∧
    ∀ s : State, exec (.load a) s = .next { s with acc := memRead s a, ic := s.ic + 1 }

/-- R111: store puts ACC into the operand's cell and into no other, and advances; nothing else changes. -/
def Obligations.StoreWritesOnlyTheOperandCell : Prop :=
  ∀ a : Nat, a < 100 →
    (∀ p, decodeWith p (2100 + (a : Int)) = .ok (.store a)) ∧
    ∀ s : State, ∃ m, exec (.store a) s = .next { s with mem := m, ic := s.ic + 1 } ∧
      ∀ b, Memory.read m b = if b = a then s.acc else memRead s b

/-- R121: add. The exact sum where it is a Word; otherwise InvalidWord with ACC and IC unchanged. -/
def Obligations.AddIsExactOrFails : Prop :=
  ∀ a : Nat, a < 100 →
    (∀ p, decodeWith p (3000 + (a : Int)) = .ok (.add a)) ∧
    ∀ s : State,
      (∀ w : Word, w.val = s.acc.val + (memRead s a).val →
        exec (.add a) s = .next { s with acc := w, ic := s.ic + 1 }) ∧
      (s.acc.val + (memRead s a).val > 9999 ∨ s.acc.val + (memRead s a).val < -9999 →
        exec (.add a) s = .next { s with status := .failed .invalidWord })

/-- R122: subtract. Accumulator minus memory, exact where it is a Word; otherwise InvalidWord with ACC and IC unchanged. -/
def Obligations.SubtractIsExactOrFails : Prop :=
  ∀ a : Nat, a < 100 →
    (∀ p, decodeWith p (3100 + (a : Int)) = .ok (.subtract a)) ∧
    ∀ s : State,
      (∀ w : Word, w.val = s.acc.val - (memRead s a).val →
        exec (.subtract a) s = .next { s with acc := w, ic := s.ic + 1 }) ∧
      (s.acc.val - (memRead s a).val > 9999 ∨ s.acc.val - (memRead s a).val < -9999 →
        exec (.subtract a) s = .next { s with status := .failed .invalidWord })

/-- R123: multiply. The exact product where it is a Word; otherwise InvalidWord with ACC and IC unchanged. -/
def Obligations.MultiplyIsExactOrFails : Prop :=
  ∀ a : Nat, a < 100 →
    (∀ p, decodeWith p (3300 + (a : Int)) = .ok (.multiply a)) ∧
    ∀ s : State,
      (∀ w : Word, w.val = s.acc.val * (memRead s a).val →
        exec (.multiply a) s = .next { s with acc := w, ic := s.ic + 1 }) ∧
      ((s.acc.val * (memRead s a).val).natAbs > 9999 →
        exec (.multiply a) s = .next { s with status := .failed .invalidWord })

/-- R124: divide. The quotient truncated toward zero for every non-zero divisor; DivisionByZero for a zero one, with ACC
and IC unchanged. -/
def Obligations.DivideTruncatesOrFailsOnZero : Prop :=
  ∀ a : Nat, a < 100 →
    (∀ p, decodeWith p (3200 + (a : Int)) = .ok (.divide a)) ∧
    ∀ s : State,
      ((memRead s a).val = 0 → exec (.divide a) s = .next { s with status := .failed .divisionByZero }) ∧
      ((memRead s a).val ≠ 0 →
        ∃ w : Word, w.val = Int.tdiv s.acc.val (memRead s a).val ∧
          exec (.divide a) s = .next { s with acc := w, ic := s.ic + 1 })

/-- R130: branch sets IC to the operand; nothing else changes. -/
def Obligations.BranchSetsTheCounter : Prop :=
  ∀ a : Nat, a < 100 →
    (∀ p, decodeWith p (4000 + (a : Int)) = .ok (.branch a)) ∧
    ∀ s : State, exec (.branch a) s = .next { s with ic := a }

/-- R131: branchNeg is taken exactly on a negative ACC, zero not being negative; nothing but IC changes. -/
def Obligations.BranchNegTestsTheSign : Prop :=
  ∀ a : Nat, a < 100 →
    (∀ p, decodeWith p (4100 + (a : Int)) = .ok (.branchNeg a)) ∧
    ∀ s : State,
      (s.acc.val < 0 → exec (.branchNeg a) s = .next { s with ic := a }) ∧
      (0 ≤ s.acc.val → exec (.branchNeg a) s = .next { s with ic := s.ic + 1 })

/-- R132: branchZero is taken exactly on a zero ACC; nothing but IC changes. -/
def Obligations.BranchZeroTestsForZero : Prop :=
  ∀ a : Nat, a < 100 →
    (∀ p, decodeWith p (4200 + (a : Int)) = .ok (.branchZero a)) ∧
    ∀ s : State,
      (s.acc.val = 0 → exec (.branchZero a) s = .next { s with ic := a }) ∧
      (s.acc.val ≠ 0 → exec (.branchZero a) s = .next { s with ic := s.ic + 1 })

/-- R133: halt sets STATUS to HALTED and nothing else, whatever its operand; a step that fetches it leaves it in IR, OPC and
OPD, and IC on it; after it no step is enabled. -/
def Obligations.HaltEndsTheRun : Prop :=
  ∀ a : Nat, a < 100 →
    (∀ p, decodeWith p (4300 + (a : Int)) = .ok (.halt a)) ∧
    ∀ s : State,
      exec (.halt a) s = .next { s with status := .halted } ∧
      step { s with status := .halted } = .fault .halted ∧
      (s.status = .run → s.ic < 100 → (memRead s s.ic).val = 4300 + (a : Int) →
        step s = .next { s with ir := memRead s s.ic, opc := 43, opd := a, status := .halted })

/-- 20_memory.md section 3, log 10 (the model's choice): Execute given an operand that is no address, which Decode never
yields, stops with `noSuchAddress`. -/
def Obligations.IllFormedInstructionStops : Prop :=
  ∀ (i : Instr) (s : State), ¬ i.WellFormed → exec i s = .fault (.noSuchAddress i.operand)

/-- 40_instruction_cycle.md sections 3 to 5: Execute of a well-formed instruction always answers a next state, and
whatever the instruction, leaves the three registers that Fetch and Decode own, and the input sequence, as they are. -/
def Obligations.ExecuteAlwaysCompletesAndKeepsLatches : Prop :=
  ∀ (i : Instr) (s : State), i.WellFormed →
    ∃ t, exec i s = .next t ∧ t.ir = s.ir ∧ t.opc = s.opc ∧ t.opd = s.opd ∧ t.inputs = s.inputs

/-! ### The cycle -/

/-- R82: a step is Fetch, Decode, Execute of the decoded instruction, with IR loaded and OPC and OPD latched around it. -/
def Obligations.StepRunsTheDecodedInstruction : Prop :=
  ∀ (s : State) (i : Instr), s.status = .run → s.ic < 100 → decode (memRead s s.ic).val = .ok i →
    step s = exec i { s with ir := memRead s s.ic, opc := i.code, opd := i.operand }

/-- R83: a Fetch outside memory fails and writes nothing but STATUS. A counter above 100, which no run reaches, is treated
like 100, the model's choice (log 19). -/
def Obligations.FetchOutsideMemoryFails : Prop :=
  ∀ (p : DecodePriority) (s : State), s.status = .run → 100 ≤ s.ic →
    stepWith p s = .next { s with status := .failed .counterOutOfRange }

/-- R85: which error Decode raises, and that a failing Decode writes neither OPC nor OPD while IR holds the offending
word; the operand condition never holds without the other, and both hold exactly for the negative words that are no
multiples of 100; `step` reports OperandOutOfRange then, the default of DECODE_PRIORITY; with neither condition, OPC and OPD
are committed and Execute follows. Choices: that a failing Decode keeps OPC and OPD (log 8, D4), the kinds of negative words
(log 7, D2) and the default (log 6, D3). -/
def Obligations.DecodeFailureKeepsTheLatches : Prop :=
  ∀ (p : DecodePriority) (s : State), s.status = .run → s.ic < 100 →
    let w := memRead s s.ic
    let unknown := ∀ c ∈ opcodes, tdiv w.val 100 ≠ (c : Int)
    let oor := trem w.val 100 < 0 ∨ 99 < trem w.val 100
    (oor → unknown) ∧
    (unknown ∧ oor ↔ w.val < 0 ∧ ¬ (100 : Int) ∣ w.val) ∧
    (oor → step s = .next { s with ir := w, status := .failed .operandOutOfRange }) ∧
    (oor → p = .operandFirst →
      stepWith p s = .next { s with ir := w, status := .failed .operandOutOfRange }) ∧
    (oor → p = .opcodeFirst →
      stepWith p s = .next { s with ir := w, status := .failed .unknownOperation }) ∧
    (unknown → ¬ oor → stepWith p s = .next { s with ir := w, status := .failed .unknownOperation }) ∧
    (¬ unknown → ¬ oor → ∃ i : Instr, (i.code : Int) = tdiv w.val 100 ∧ (i.operand : Int) = trem w.val 100 ∧
      stepWith p s = exec i { s with ir := w, opc := i.code, opd := i.operand })

/-- R30: a step is enabled exactly in RUN; HALTED is entered by a halt and by nothing else; from HALTED and FAILED(k) the
state never changes again; a run starts in RUN. -/
def Obligations.StepIsEnabledExactlyInRun : Prop :=
  (∀ s : State, (∃ t, step s = .next t) ↔ s.status = .run) ∧
  (∀ s t : State, step s = .next t → (t.status = .halted ↔ ∃ a, currentInstr s = some (.halt a))) ∧
  (∀ s : State, s.status = .halted → step s = .fault .halted) ∧
  (∀ (s : State) (k : ErrorKind), s.status = .failed k → step s = .fault (.failed k)) ∧
  (∀ (s : State) (n : Nat), s.status ≠ .run → runFor n s = s) ∧
  (∀ (image : Memory) (inputs : List Int), (State.start image inputs).status = .run)

/-! ### Errors -/

/-- R160: when each error kind is raised by a step from a running state, and that LoadFailure never is. The conditions of
the two decode errors on negative words rest on the decoder's truncating division, a choice (log 7, D2). -/
def Obligations.EachErrorIsRaisedExactlyWhen : Prop :=
  ∀ (p : DecodePriority) (s : State), s.status = .run →
    let w := (memRead s s.ic).val
    let cell := fun a => (memRead s a).val
    ¬ FailsWith p s .loadFailure ∧
    (FailsWith p s .counterOutOfRange ↔ 100 ≤ s.ic) ∧
    (FailsWith p s .operandOutOfRange ↔ s.ic < 100 ∧ p = .operandFirst ∧ trem w 100 < 0) ∧
    (FailsWith p s .unknownOperation ↔
      s.ic < 100 ∧ (∀ c ∈ opcodes, tdiv w 100 ≠ (c : Int)) ∧ ¬ (p = .operandFirst ∧ trem w 100 < 0)) ∧
    (FailsWith p s .inputExhausted ↔
      s.ic < 100 ∧ ∃ a, decodeWith p w = .ok (.read a) ∧ s.inputs.length ≤ s.incur) ∧
    (FailsWith p s .invalidWord ↔
      s.ic < 100 ∧ ∃ a,
        (decodeWith p w = .ok (.read a) ∧ ∃ h : s.incur < s.inputs.length, ¬ InWordRange s.inputs[s.incur]) ∨
        (decodeWith p w = .ok (.add a) ∧ ¬ InWordRange (s.acc.val + cell a)) ∨
        (decodeWith p w = .ok (.subtract a) ∧ ¬ InWordRange (s.acc.val - cell a)) ∨
        (decodeWith p w = .ok (.multiply a) ∧ ¬ InWordRange (s.acc.val * cell a))) ∧
    (FailsWith p s .divisionByZero ↔ s.ic < 100 ∧ ∃ a, decodeWith p w = .ok (.divide a) ∧ cell a = 0)

/-- R166: errors are precise. What the failing step has written, by error kind, and that no step follows. The two premises
are the ranges of IC and INCUR, which every step keeps (`StepKeepsTheInvariant`). What IC, OPC, OPD and INCUR hold in the
failed state is a choice (log 8, D4, D5, D7). -/
def Obligations.FailingStepWritesOnlyWhatTheTableLists : Prop :=
  ∀ (p : DecodePriority) (s t : State) (k : ErrorKind), s.ic ≤ 100 → s.incur ≤ s.inputs.length →
    stepWith p s = .next t → t.status = .failed k →
    stepWith p t = .fault (.failed k) ∧
    match k with
    | .loadFailure => False
    | .counterOutOfRange => s.ic = 100 ∧ t = { s with status := .failed .counterOutOfRange }
    | .operandOutOfRange => t = { s with ir := memRead s s.ic, status := .failed .operandOutOfRange }
    | .unknownOperation => t = { s with ir := memRead s s.ic, status := .failed .unknownOperation }
    | .inputExhausted => ∃ a : Nat, (memRead s s.ic).val = 1000 + (a : Int) ∧ a < 100 ∧ s.incur = s.inputs.length ∧
        t = { s with ir := memRead s s.ic, opc := 10, opd := a, status := .failed .inputExhausted }
    | .invalidWord => ∃ (c a : Nat), (memRead s s.ic).val = (c : Int) * 100 + a ∧ a < 100 ∧
        ((c = 10 ∧ t = { s with ir := memRead s s.ic, opc := 10, opd := a, incur := s.incur + 1, status := .failed .invalidWord }) ∨
          ((c = 30 ∨ c = 31 ∨ c = 33) ∧
            t = { s with ir := memRead s s.ic, opc := c, opd := a, status := .failed .invalidWord }))
    | .divisionByZero => ∃ a : Nat, (memRead s s.ic).val = 3200 + (a : Int) ∧ a < 100 ∧
        t = { s with ir := memRead s s.ic, opc := 32, opd := a, status := .failed .divisionByZero }

/-- D3: DECODE_PRIORITY changes nothing but the kind that is reported, and that only for a fetched negative word that is no
multiple of 100; `step` runs under OperandFirst. Choices: the default (log 6), the kinds of negative words (log 7). -/
def Obligations.PriorityChangesOnlyTheReportedKind : Prop :=
  ∀ s : State,
    let w := memRead s s.ic
    step s = stepWith .operandFirst s ∧
    if s.status = .run ∧ s.ic < 100 ∧ w.val < 0 ∧ ¬ (100 : Int) ∣ w.val then
      stepWith .operandFirst s = .next { s with ir := w, status := .failed .operandOutOfRange } ∧
      stepWith .opcodeFirst s = .next { s with ir := w, status := .failed .unknownOperation }
    else stepWith .operandFirst s = stepWith .opcodeFirst s

/-! ### What only certain instructions do -/

/-- R21: ACC is written by load and the four arithmetic instructions only; read, write, branch and halt neither read nor
write it. -/
def Obligations.AccIsWrittenOnlyByLoadAndArithmetic : Prop :=
  (∀ s t : State, step s = .next t → t.acc ≠ s.acc →
    ∃ a, currentInstr s = some (.load a) ∨ currentInstr s = some (.add a) ∨ currentInstr s = some (.subtract a) ∨
      currentInstr s = some (.multiply a) ∨ currentInstr s = some (.divide a)) ∧
  (∀ (a : Nat) (i : Instr) (s : State) (w : Word), (i = .read a ∨ i = .write a ∨ i = .branch a ∨ i = .halt a) →
    exec i { s with acc := w } = mapNext (fun t => { t with acc := w }) (exec i s))

/-- R27, R41: a cell changes only in a step that executes a read or a store whose operand is that cell. -/
def Obligations.MemoryIsWrittenOnlyAtTheOperandOfReadAndStore : Prop :=
  ∀ s t : State, step s = .next t → ∀ b, memRead t b ≠ memRead s b →
    currentInstr s = some (.read b) ∨ currentInstr s = some (.store b)

/-- R89: where IC goes: a failing step and a halt leave it, a taken branch sets it to the operand, everything else advances
it by one; from 99 the advance gives 100 and the next Fetch fails. That a failing step leaves IC is a choice (log 8, D5). -/
def Obligations.CounterAdvancesBranchesOrStays : Prop :=
  (∀ s t : State, step s = .next t →
    (∀ k, t.status = .failed k → t.ic = s.ic) ∧
    ((∀ k, t.status ≠ .failed k) →
      ∃ i, currentInstr s = some i ∧
        t.ic = match i with
          | .branch a => a
          | .branchNeg a => if s.acc.val < 0 then a else s.ic + 1
          | .branchZero a => if s.acc.val = 0 then a else s.ic + 1
          | .halt _ => s.ic
          | _ => s.ic + 1)) ∧
  (∀ s t : State, s.ic = 99 → step s = .next t → t.status = .run → t.ic = s.ic + 1 →
    t.ic = 100 ∧ step t = .next { t with status := .failed .counterOutOfRange })

/-- R28, R29: the cursor moves by one in a read that finds an element and in no other step; OUT grows by the emitted pair
in a write and is otherwise kept; the input sequence is never written. -/
def Obligations.CursorAndOutputLogMoveOnlyByReadAndWrite : Prop :=
  ∀ s t : State, step s = .next t →
    t.inputs = s.inputs ∧
    ((∃ a, currentInstr s = some (.read a)) → s.incur < s.inputs.length → t.incur = s.incur + 1) ∧
    (¬ ((∃ a, currentInstr s = some (.read a)) ∧ s.incur < s.inputs.length) → t.incur = s.incur) ∧
    (∀ a, currentInstr s = some (.write a) → t.out = s.out ++ [(a, memRead s a)]) ∧
    ((∀ a, currentInstr s ≠ some (.write a)) → t.out = s.out)

/-- R28: a step looks at no element but the one at the cursor, and no instruction but read looks at the inputs or the
cursor at all. -/
def Obligations.NoLookaheadIntoTheInputs : Prop :=
  (∀ (s : State) (js : List Int), js[s.incur]? = s.inputs[s.incur]? →
    step { s with inputs := js } = mapNext (fun t => { t with inputs := js }) (step s)) ∧
  (∀ (i : Instr) (s : State) (js : List Int) (n : Nat), (∀ a, i ≠ .read a) →
    exec i { s with inputs := js, incur := n } = mapNext (fun t => { t with inputs := js, incur := n }) (exec i s))

/-- R29: nothing reads OUT and nothing removes from it. -/
def Obligations.OutputLogIsNeverRead : Prop :=
  ∀ (s : State) (before : List Cell),
    step { s with out := before ++ s.out } = mapNext (fun t => { t with out := before ++ t.out }) (step s)

/-- R24, R25, R26: what IR, OPC and OPD held before a step that decodes has no influence on it. -/
def Obligations.OldLatchesAreNeverRead : Prop :=
  ∀ (s : State) (i : Instr) (w : Word) (c d : Nat), currentInstr s = some i →
    step { s with ir := w, opc := c, opd := d } = step s

/-- R51: a word stored into a cell, or read into it, is what the next fetch of that cell gets, the very next step's
included; the step that writes is itself unaffected, its own cell written or not. -/
def Obligations.WrittenWordIsFetchedByTheNextStep : Prop :=
  ∀ (s : State) (a : Nat) (v : Word),
    (currentInstr s = some (.store a) ∧ v = s.acc) ∨
      (currentInstr s = some (.read a) ∧ ∃ h : s.incur < s.inputs.length, s.inputs[s.incur] = v.val) →
    ∃ t, step s = .next t ∧ t.ir = memRead s s.ic ∧ t.ic = s.ic + 1 ∧ memRead t a = v ∧
      (a = s.ic + 1 → ∃ u, step t = .next u ∧ u.ir = v)

/-! ### Runs -/

/-- R33, R26: every step keeps the invariant. -/
def Obligations.StepKeepsTheInvariant : Prop :=
  ∀ s t : State, s.Inv → step s = .next t → t.Inv

/-- R33, R35: the start of a run meets the invariant for every image and every input sequence, `State.reset` included. -/
def Obligations.StartOfARunMeetsTheInvariant : Prop :=
  (∀ (image : Memory) (inputs : List Int), Memory.wf image = true → (State.start image inputs).Inv) ∧ State.reset.Inv

/-- R33: at every step boundary of every run, from every image and every input sequence: OPD, IC and OPC are in their
ranges, INCUR is the number of reads that found an element and at most the number of elements, OUT has one item for each
write executed, and IC is 100 only after an advance from 99 or in the failure that follows it (the reading of R33 (c) of
log 20). -/
def Obligations.RunsCountReadsAndWrites : Prop :=
  ∀ (image : Memory) (inputs : List Int) (r w : Nat) (s : State), Memory.wf image = true → Run image inputs r w s →
    s.opd ≤ 99 ∧ s.ic ≤ 100 ∧ legalOpc s.opc ∧ s.inputs = inputs ∧ s.incur = r ∧ s.incur ≤ inputs.length ∧
    s.out.length = w ∧ Memory.wf s.mem = true ∧
    (∀ t, step s = .next t → t.ic = 100 →
      (s.ic = 99 ∧ t.status = .run) ∨ (s.ic = 100 ∧ t.status = .failed .counterOutOfRange))

/-- R90: every run halts, or fails with a kind other than LoadFailure, or goes on for ever; and at its end it stays. -/
def Obligations.EveryRunHaltsFailsOrNeverEnds : Prop :=
  ∀ (image : Memory) (inputs : List Int),
    let at_ := fun n => runFor n (State.start image inputs)
    ((∃ n, (at_ n).Halted) ∨ (∃ n k, (at_ n).status = .failed k ∧ k ≠ .loadFailure) ∨ ∀ n, (at_ n).status = .run) ∧
    (∀ n m, (at_ n).status ≠ .run → n ≤ m → at_ m = at_ n)

/-- R91, R130: a branch to itself, executed once, is executed for ever. -/
def Obligations.BranchToItselfNeverEnds : Prop :=
  ∀ (s : State) (a : Nat), a < 100 → s.status = .run → s.ic = a → (memRead s a).val = 4000 + (a : Int) →
    ∀ n, (runFor n s).status = .run ∧ (runFor n s).ic = a ∧ (runFor n s).acc = s.acc ∧ (runFor n s).mem = s.mem ∧
      (runFor n s).out = s.out

/-- R91: a run that takes no branch to a target at or below its own address ends within 101 steps. -/
def Obligations.RunWithoutBackwardBranchEndsWithin101Steps : Prop :=
  ∀ s : State, (∀ n, n < 101 → takesBackwardBranch (runFor n s) = false) → (runFor 101 s).status ≠ .run

/-- R190: reset puts every item of state except the memory at its value of R35, from any state whatever. Choices: OPC and
OPD are 0 (log 9, D11), and reset keeps the inputs, which are no state of the spec's (log 18). -/
def Obligations.ResetFromAnyState : Prop :=
  ∀ s : State,
    s.assertReset =
      { acc := Word.zero, ic := 0, ir := Word.zero, opc := 0, opd := 0, mem := s.mem, inputs := s.inputs, incur := 0,
        out := [], status := .run }

/-- R35, R192: the first step of a run fetches address 0, whatever the image and the inputs. -/
def Obligations.RunStartsAtAddressZero : Prop :=
  ∀ (p : DecodePriority) (image : Memory) (inputs : List Int),
    ∃ t, stepWith p (State.start image inputs) = .next t ∧ t.ir = Memory.read image 0

/-! ### Memory, loader and ports -/

/-- R44, log 2: memories in canonical form that read alike in every cell are equal, and the form lists cells 0..99 only. -/
def Obligations.CanonicalMemoriesThatReadAlikeAreEqual : Prop :=
  ∀ m n : Memory, Memory.wf m = true → Memory.wf n = true →
    (∀ a, a < 100 → Memory.read m a = Memory.read n a) → m = n

/-- R195: the loader's contract: the values before the sentinel go to the cells from 0 upward and every other cell is 0; a
value that is no Word, and a 101st value, are rejected with LoadFailure; lines after the sentinel are ignored. -/
def Obligations.LoaderFillsFromCellZeroOrRejects : Prop :=
  (∀ (ws : List Word) (rest : List Int), ws.length ≤ 100 →
    ∃ m, loadProgram (ws.map Word.val ++ -99999 :: rest) = .image m ∧ Memory.wf m = true ∧
      ∀ n, Memory.read m n = ws.getD n Word.zero) ∧
  (∀ (ws : List Word) (v : Int) (rest : List Int), v ≠ -99999 → ¬ InWordRange v →
    loadProgram (ws.map Word.val ++ v :: rest) = .failure .loadFailure) ∧
  (∀ (ws : List Word) (rest : List Int), 100 < ws.length →
    loadProgram (ws.map Word.val ++ rest) = .failure .loadFailure)

/-- R149, R150, R151: what a step shows at its ports is what it does: one fetch read at IC, at most one data access, that
of the instruction's row in R41 and at its operand, the written word, the pop and the emit. The ports as views of the model
are a choice (log 12, D12). -/
def Obligations.PortsShowWhatTheStepDoes : Prop :=
  ∀ s t : State, step s = .next t →
    let act := stepActivity s
    (act.fetchRead = if s.ic < 100 then some s.ic else none) ∧
    t.ir = (match act.fetchRead with | some a => memRead s a | none => s.ir) ∧
    (act.dataRead =
      match currentInstr s with
      | some (.write a) => some a
      | some (.load a) => some a
      | some (.add a) => some a
      | some (.subtract a) => some a
      | some (.multiply a) => some a
      | some (.divide a) => some a
      | _ => none) ∧
    (∀ a v, act.dataWrite = some (a, v) → currentInstr s = some (.read a) ∨ currentInstr s = some (.store a)) ∧
    (∀ a, currentInstr s = some (.store a) → act.dataWrite = some (a, s.acc)) ∧
    (∀ (a : Nat) (v : Word), currentInstr s = some (.read a) → s.inputs[s.incur]? = some v.val →
      act.dataWrite = some (a, v)) ∧
    (act.dataRead = none ∨ act.dataWrite = none) ∧
    (∀ b, memRead t b =
      match act.dataWrite with
      | some (a, v) => if b = a then v else memRead s b
      | none => memRead s b) ∧
    t.incur = s.incur + (if act.popped then 1 else 0) ∧
    t.out = s.out ++ act.emitted.toList

/-- R152, R161: exactly one of running, halted and failed is shown, `err_kind` shows the code of the kind and 0 where nothing
has failed, and after reset the machine shows running. The numbers are a choice (log 17, D10). -/
def Obligations.StatusPinsShowExactlyOne : Prop :=
  (∀ s : State,
    ((pins s).running = true ∧ (pins s).halted = false ∧ (pins s).failed = false) ∨
    ((pins s).running = false ∧ (pins s).halted = true ∧ (pins s).failed = false) ∨
    ((pins s).running = false ∧ (pins s).halted = false ∧ (pins s).failed = true)) ∧
  (∀ s : State, (pins s).errKind =
    match s.status with
    | .run => 0
    | .halted => 0
    | .failed .loadFailure => 1
    | .failed .operandOutOfRange => 2
    | .failed .unknownOperation => 3
    | .failed .counterOutOfRange => 4
    | .failed .inputExhausted => 5
    | .failed .invalidWord => 6
    | .failed .divisionByZero => 7) ∧
  (∀ s : State, (pins s.assertReset).running = true)

/-- Log 11 (the model's choice of where the host's word is placed): a word of the opcode table's notation placed where the
next Fetch reads is what the next step runs, and nothing but that cell is changed. -/
def Obligations.PlacedWordIsRunByTheNextStep : Prop :=
  ∀ (s : State) (w : Nat) (i : Instr), s.status = .run → s.ic < 100 → decodeTableWord 16 w = some i →
    ∃ (m : Memory) (v : Word), v.val = encode i ∧ s.withFetchWord 16 w = { s with mem := m } ∧
      (∀ b, Memory.read m b = if b = s.ic then v else memRead s b) ∧
      step (s.withFetchWord 16 w) = exec i { s with mem := m, ir := v, opc := i.code, opd := i.operand }
end

