-- ==== Sys2Proof/Laws/Arith.lean ====
section
/-! SUPPORT. The integer operations against the library's, and what the validator answers. -/

namespace Sys2Proof.Machine

theorem tdiv_eq_tdiv (a b : Int) : tdiv a b = Int.tdiv a b := by
  rcases a with (_ | m) | m <;> rcases b with (_ | n) | n <;>
    simp [tdiv, Int.tdiv, Int.sign, Int.natAbs]

theorem trem_eq_tmod (a b : Int) : trem a b = Int.tmod a b := by
  rw [trem, tdiv_eq_tdiv]
  have := Int.tmod_add_tdiv_mul a b
  rw [Int.mul_comm] at this
  omega

/-- The decoder's split of a word `c * 100 + a` with a two-digit operand (30_encoding.md R69). -/
theorem tdiv_hundred (c a : Nat) (h : a < 100) : tdiv ((c : Int) * 100 + a) 100 = c := by
  rw [tdiv_eq_tdiv, Int.tdiv_eq_ediv_of_nonneg (by omega)]
  omega

theorem trem_hundred (c a : Nat) (h : a < 100) : trem ((c : Int) * 100 + a) 100 = a := by
  rw [trem, tdiv_hundred c a h]
  omega

theorem validate_of_valid {v : Int} (h : -9999 ≤ v ∧ v ≤ 9999) : validate v = some ⟨v, h⟩ := by
  have : isValid v = true := (isValid_iff v).mpr h
  simp [validate, this]

@[simp] theorem validate_val (w : Word) : validate w.val = some w := validate_of_valid w.inRange

theorem validate_eq_some_iff {v : Int} {w : Word} : validate v = some w ↔ w.val = v := by
  constructor
  · intro h
    by_cases hv : isValid v = true
    · rw [validate_of_valid ((isValid_iff v).mp hv)] at h
      exact (congrArg Word.val (Option.some.inj h)).symm
    · simp [validate, hv] at h
  · rintro rfl
    exact validate_val w

theorem validate_eq_none_iff {v : Int} : validate v = none ↔ v < -9999 ∨ 9999 < v := by
  by_cases hv : isValid v = true
  · have := (isValid_iff v).mp hv
    rw [validate_of_valid this]
    simp at this ⊢
    omega
  · have hv' := mt (isValid_iff v).mpr hv
    simp [validate, hv] at hv' ⊢
    omega

end Sys2Proof.Machine
end

