-- ==== Sys2Proof/Laws/State.lean ====
section
/-! SUPPORT. One lemma per field per update of the state, so that no later proof unfolds one. -/

namespace Sys2Proof.Machine

@[simp] theorem memWrite_acc (a : Nat) (v : Word) (s : State) : (memWrite a v s).acc = s.acc := rfl
@[simp] theorem memWrite_ic (a : Nat) (v : Word) (s : State) : (memWrite a v s).ic = s.ic := rfl
@[simp] theorem memWrite_ir (a : Nat) (v : Word) (s : State) : (memWrite a v s).ir = s.ir := rfl
@[simp] theorem memWrite_opc (a : Nat) (v : Word) (s : State) : (memWrite a v s).opc = s.opc := rfl
@[simp] theorem memWrite_opd (a : Nat) (v : Word) (s : State) : (memWrite a v s).opd = s.opd := rfl
@[simp] theorem memWrite_mem (a : Nat) (v : Word) (s : State) : (memWrite a v s).mem = Memory.write s.mem a v := rfl
@[simp] theorem memWrite_inputs (a : Nat) (v : Word) (s : State) : (memWrite a v s).inputs = s.inputs := rfl
@[simp] theorem memWrite_incur (a : Nat) (v : Word) (s : State) : (memWrite a v s).incur = s.incur := rfl
@[simp] theorem memWrite_out (a : Nat) (v : Word) (s : State) : (memWrite a v s).out = s.out := rfl
@[simp] theorem memWrite_status (a : Nat) (v : Word) (s : State) : (memWrite a v s).status = s.status := rfl

@[simp] theorem setAcc_acc (v : Word) (s : State) : (setAcc v s).acc = v := rfl
@[simp] theorem setAcc_ic (v : Word) (s : State) : (setAcc v s).ic = s.ic := rfl
@[simp] theorem setAcc_ir (v : Word) (s : State) : (setAcc v s).ir = s.ir := rfl
@[simp] theorem setAcc_opc (v : Word) (s : State) : (setAcc v s).opc = s.opc := rfl
@[simp] theorem setAcc_opd (v : Word) (s : State) : (setAcc v s).opd = s.opd := rfl
@[simp] theorem setAcc_mem (v : Word) (s : State) : (setAcc v s).mem = s.mem := rfl
@[simp] theorem setAcc_inputs (v : Word) (s : State) : (setAcc v s).inputs = s.inputs := rfl
@[simp] theorem setAcc_incur (v : Word) (s : State) : (setAcc v s).incur = s.incur := rfl
@[simp] theorem setAcc_out (v : Word) (s : State) : (setAcc v s).out = s.out := rfl
@[simp] theorem setAcc_status (v : Word) (s : State) : (setAcc v s).status = s.status := rfl

@[simp] theorem branchTo_acc (a : Nat) (s : State) : (branchTo a s).acc = s.acc := rfl
@[simp] theorem branchTo_ic (a : Nat) (s : State) : (branchTo a s).ic = a := rfl
@[simp] theorem branchTo_ir (a : Nat) (s : State) : (branchTo a s).ir = s.ir := rfl
@[simp] theorem branchTo_opc (a : Nat) (s : State) : (branchTo a s).opc = s.opc := rfl
@[simp] theorem branchTo_opd (a : Nat) (s : State) : (branchTo a s).opd = s.opd := rfl
@[simp] theorem branchTo_mem (a : Nat) (s : State) : (branchTo a s).mem = s.mem := rfl
@[simp] theorem branchTo_inputs (a : Nat) (s : State) : (branchTo a s).inputs = s.inputs := rfl
@[simp] theorem branchTo_incur (a : Nat) (s : State) : (branchTo a s).incur = s.incur := rfl
@[simp] theorem branchTo_out (a : Nat) (s : State) : (branchTo a s).out = s.out := rfl
@[simp] theorem branchTo_status (a : Nat) (s : State) : (branchTo a s).status = s.status := rfl

@[simp] theorem advance_acc (s : State) : (advance s).acc = s.acc := rfl
@[simp] theorem advance_ic (s : State) : (advance s).ic = s.ic + 1 := rfl
@[simp] theorem advance_ir (s : State) : (advance s).ir = s.ir := rfl
@[simp] theorem advance_opc (s : State) : (advance s).opc = s.opc := rfl
@[simp] theorem advance_opd (s : State) : (advance s).opd = s.opd := rfl
@[simp] theorem advance_mem (s : State) : (advance s).mem = s.mem := rfl
@[simp] theorem advance_inputs (s : State) : (advance s).inputs = s.inputs := rfl
@[simp] theorem advance_incur (s : State) : (advance s).incur = s.incur := rfl
@[simp] theorem advance_out (s : State) : (advance s).out = s.out := rfl
@[simp] theorem advance_status (s : State) : (advance s).status = s.status := rfl

@[simp] theorem inPop_acc (s : State) : (inPop s).acc = s.acc := rfl
@[simp] theorem inPop_ic (s : State) : (inPop s).ic = s.ic := rfl
@[simp] theorem inPop_ir (s : State) : (inPop s).ir = s.ir := rfl
@[simp] theorem inPop_opc (s : State) : (inPop s).opc = s.opc := rfl
@[simp] theorem inPop_opd (s : State) : (inPop s).opd = s.opd := rfl
@[simp] theorem inPop_mem (s : State) : (inPop s).mem = s.mem := rfl
@[simp] theorem inPop_inputs (s : State) : (inPop s).inputs = s.inputs := rfl
@[simp] theorem inPop_incur (s : State) : (inPop s).incur = s.incur + 1 := rfl
@[simp] theorem inPop_out (s : State) : (inPop s).out = s.out := rfl
@[simp] theorem inPop_status (s : State) : (inPop s).status = s.status := rfl

@[simp] theorem emit_acc (a : Nat) (v : Word) (s : State) : (emit a v s).acc = s.acc := rfl
@[simp] theorem emit_ic (a : Nat) (v : Word) (s : State) : (emit a v s).ic = s.ic := rfl
@[simp] theorem emit_ir (a : Nat) (v : Word) (s : State) : (emit a v s).ir = s.ir := rfl
@[simp] theorem emit_opc (a : Nat) (v : Word) (s : State) : (emit a v s).opc = s.opc := rfl
@[simp] theorem emit_opd (a : Nat) (v : Word) (s : State) : (emit a v s).opd = s.opd := rfl
@[simp] theorem emit_mem (a : Nat) (v : Word) (s : State) : (emit a v s).mem = s.mem := rfl
@[simp] theorem emit_inputs (a : Nat) (v : Word) (s : State) : (emit a v s).inputs = s.inputs := rfl
@[simp] theorem emit_incur (a : Nat) (v : Word) (s : State) : (emit a v s).incur = s.incur := rfl
@[simp] theorem emit_out (a : Nat) (v : Word) (s : State) : (emit a v s).out = s.out ++ [(a, v)] := rfl
@[simp] theorem emit_status (a : Nat) (v : Word) (s : State) : (emit a v s).status = s.status := rfl

@[simp] theorem haltRun_acc (s : State) : (haltRun s).acc = s.acc := rfl
@[simp] theorem haltRun_ic (s : State) : (haltRun s).ic = s.ic := rfl
@[simp] theorem haltRun_ir (s : State) : (haltRun s).ir = s.ir := rfl
@[simp] theorem haltRun_opc (s : State) : (haltRun s).opc = s.opc := rfl
@[simp] theorem haltRun_opd (s : State) : (haltRun s).opd = s.opd := rfl
@[simp] theorem haltRun_mem (s : State) : (haltRun s).mem = s.mem := rfl
@[simp] theorem haltRun_inputs (s : State) : (haltRun s).inputs = s.inputs := rfl
@[simp] theorem haltRun_incur (s : State) : (haltRun s).incur = s.incur := rfl
@[simp] theorem haltRun_out (s : State) : (haltRun s).out = s.out := rfl
@[simp] theorem haltRun_status (s : State) : (haltRun s).status = .halted := rfl

@[simp] theorem loadIr_acc (s : State) : (loadIr s).acc = s.acc := rfl
@[simp] theorem loadIr_ic (s : State) : (loadIr s).ic = s.ic := rfl
@[simp] theorem loadIr_ir (s : State) : (loadIr s).ir = memRead s s.ic := rfl
@[simp] theorem loadIr_opc (s : State) : (loadIr s).opc = s.opc := rfl
@[simp] theorem loadIr_opd (s : State) : (loadIr s).opd = s.opd := rfl
@[simp] theorem loadIr_mem (s : State) : (loadIr s).mem = s.mem := rfl
@[simp] theorem loadIr_inputs (s : State) : (loadIr s).inputs = s.inputs := rfl
@[simp] theorem loadIr_incur (s : State) : (loadIr s).incur = s.incur := rfl
@[simp] theorem loadIr_out (s : State) : (loadIr s).out = s.out := rfl
@[simp] theorem loadIr_status (s : State) : (loadIr s).status = s.status := rfl

@[simp] theorem latchDecoded_acc (i : Instr) (s : State) : (latchDecoded i s).acc = s.acc := rfl
@[simp] theorem latchDecoded_ic (i : Instr) (s : State) : (latchDecoded i s).ic = s.ic := rfl
@[simp] theorem latchDecoded_ir (i : Instr) (s : State) : (latchDecoded i s).ir = s.ir := rfl
@[simp] theorem latchDecoded_opc (i : Instr) (s : State) : (latchDecoded i s).opc = i.code := rfl
@[simp] theorem latchDecoded_opd (i : Instr) (s : State) : (latchDecoded i s).opd = i.operand := rfl
@[simp] theorem latchDecoded_mem (i : Instr) (s : State) : (latchDecoded i s).mem = s.mem := rfl
@[simp] theorem latchDecoded_inputs (i : Instr) (s : State) : (latchDecoded i s).inputs = s.inputs := rfl
@[simp] theorem latchDecoded_incur (i : Instr) (s : State) : (latchDecoded i s).incur = s.incur := rfl
@[simp] theorem latchDecoded_out (i : Instr) (s : State) : (latchDecoded i s).out = s.out := rfl
@[simp] theorem latchDecoded_status (i : Instr) (s : State) : (latchDecoded i s).status = s.status := rfl

@[simp] theorem reset_acc : State.reset.acc = Word.zero := rfl
@[simp] theorem reset_ic : State.reset.ic = 0 := rfl
@[simp] theorem reset_ir : State.reset.ir = Word.zero := rfl
@[simp] theorem reset_opc : State.reset.opc = 0 := rfl
@[simp] theorem reset_opd : State.reset.opd = 0 := rfl
@[simp] theorem reset_mem : State.reset.mem = [] := rfl
@[simp] theorem reset_inputs : State.reset.inputs = [] := rfl
@[simp] theorem reset_incur : State.reset.incur = 0 := rfl
@[simp] theorem reset_out : State.reset.out = [] := rfl
@[simp] theorem reset_status : State.reset.status = .run := rfl

@[simp] theorem start_acc (image : Memory) (inputs : List Int) : (State.start image inputs).acc = Word.zero := rfl
@[simp] theorem start_ic (image : Memory) (inputs : List Int) : (State.start image inputs).ic = 0 := rfl
@[simp] theorem start_ir (image : Memory) (inputs : List Int) : (State.start image inputs).ir = Word.zero := rfl
@[simp] theorem start_opc (image : Memory) (inputs : List Int) : (State.start image inputs).opc = 0 := rfl
@[simp] theorem start_opd (image : Memory) (inputs : List Int) : (State.start image inputs).opd = 0 := rfl
@[simp] theorem start_mem (image : Memory) (inputs : List Int) : (State.start image inputs).mem = image := rfl
@[simp] theorem start_inputs (image : Memory) (inputs : List Int) : (State.start image inputs).inputs = inputs := rfl
@[simp] theorem start_incur (image : Memory) (inputs : List Int) : (State.start image inputs).incur = 0 := rfl
@[simp] theorem start_out (image : Memory) (inputs : List Int) : (State.start image inputs).out = [] := rfl
@[simp] theorem start_status (image : Memory) (inputs : List Int) : (State.start image inputs).status = .run := rfl

@[simp] theorem memRead_setAcc (v : Word) (s : State) (b : Nat) : memRead (setAcc v s) b = memRead s b := rfl
@[simp] theorem memRead_branchTo (a : Nat) (s : State) (b : Nat) : memRead (branchTo a s) b = memRead s b := rfl
@[simp] theorem memRead_advance (s : State) (b : Nat) : memRead (advance s) b = memRead s b := rfl
@[simp] theorem memRead_inPop (s : State) (b : Nat) : memRead (inPop s) b = memRead s b := rfl
@[simp] theorem memRead_emit (a : Nat) (v : Word) (s : State) (b : Nat) : memRead (emit a v s) b = memRead s b := rfl
@[simp] theorem memRead_haltRun (s : State) (b : Nat) : memRead (haltRun s) b = memRead s b := rfl
@[simp] theorem memRead_loadIr (s : State) (b : Nat) : memRead (loadIr s) b = memRead s b := rfl
@[simp] theorem memRead_latchDecoded (i : Instr) (s : State) (b : Nat) : memRead (latchDecoded i s) b = memRead s b := rfl

theorem memRead_eq (s : State) (a : Nat) : memRead s a = Memory.read s.mem a := rfl

theorem raise_eq (k : ErrorKind) (s : State) : raise k s = .next { s with status := .failed k } := rfl

theorem assertReset_eq (s : State) : s.assertReset = State.start s.mem s.inputs := rfl

end Sys2Proof.Machine
end

