-- ==== Sys2Proof/Laws/Memory.lean ====
section
/-! SUPPORT. What a memory operation does to every cell, and that each keeps the canonical form. -/

namespace Sys2Proof.Machine

theorem Memory.read_erase (m : Memory) (a b : Nat) :
    Memory.read (Memory.erase m a) b = if b = a then Memory.unlisted else Memory.read m b := by
  induction m with
  | nil => simp [Memory.erase, Memory.read]
  | cons c m ih =>
    obtain ⟨x, v⟩ := c
    simp only [Memory.erase, Memory.read]
    split_ifs <;> simp_all [Memory.read]

theorem Memory.read_cons (x a : Nat) (u : Word) (m : Memory) :
    Memory.read ((x, u) :: m) a = if x = a then u else Memory.read m a := rfl

/-- Where no entry lists cell `a`, the entry (a, v) put in is what the cell reads as, and no other cell changes. -/
theorem Memory.read_insert (m : Memory) (a b : Nat) (v : Word) (h : ∀ c ∈ m, c.1 ≠ a) :
    Memory.read (Memory.insert m a v) b = if b = a then v else Memory.read m b := by
  induction m with
  | nil => simp only [Memory.insert, Memory.read, @eq_comm _ a b]
  | cons c m ih =>
    obtain ⟨x, u⟩ := c
    have hx : x ≠ a := h _ (List.mem_cons_self ..)
    have ih := ih fun c hc => h c (List.mem_cons_of_mem _ hc)
    simp only [Memory.insert]
    by_cases hax : a < x
    · rw [if_pos hax, Memory.read_cons]
      by_cases hb : a = b
      · rw [if_pos hb, if_pos hb.symm]
      · rw [if_neg hb, if_neg (Ne.symm hb)]
    · rw [if_neg hax, Memory.read_cons, ih, Memory.read_cons]
      by_cases hb : b = a
      · rw [if_pos hb, if_pos hb, if_neg (by omega)]
      · rw [if_neg hb, if_neg hb]

theorem Memory.ne_of_mem_erase {m : Memory} {a : Nat} {c : Cell} (h : c ∈ Memory.erase m a) : c.1 ≠ a ∧ c ∈ m := by
  induction m with
  | nil => simp [Memory.erase] at h
  | cons d m ih =>
    obtain ⟨x, v⟩ := d
    simp only [Memory.erase] at h
    split_ifs at h with hx
    · exact ⟨(ih h).1, List.mem_cons_of_mem _ (ih h).2⟩
    · rcases List.mem_cons.mp h with rfl | h
      · exact ⟨hx, List.mem_cons_self ..⟩
      · exact ⟨(ih h).1, List.mem_cons_of_mem _ (ih h).2⟩

/-- A write replaces its cell and does nothing else (20_memory.md R44). -/
theorem Memory.read_write (m : Memory) (a b : Nat) (v : Word) :
    Memory.read (Memory.write m a v) b = if b = a then v else Memory.read m b := by
  unfold Memory.write
  split_ifs with hv hb hb
  · rw [Memory.read_erase, if_pos hb, hv]
  · rw [Memory.read_erase, if_neg hb]
  · rw [Memory.read_insert _ _ _ _ (fun c hc => (Memory.ne_of_mem_erase hc).1), if_pos hb]
  · rw [Memory.read_insert _ _ _ _ (fun c hc => (Memory.ne_of_mem_erase hc).1), if_neg hb,
      Memory.read_erase, if_neg hb]

theorem Memory.wfFrom_cons {lo a : Nat} {v : Word} {m : Memory} :
    Memory.wfFrom lo ((a, v) :: m) = true ↔ lo ≤ a ∧ a < 100 ∧ v ≠ Memory.unlisted ∧ Memory.wfFrom (a + 1) m = true := by
  simp [Memory.wfFrom, and_assoc]

theorem Memory.wfFrom_mono {lo lo' : Nat} {m : Memory} (h : Memory.wfFrom lo m = true) (hl : lo' ≤ lo) :
    Memory.wfFrom lo' m = true := by
  cases m with
  | nil => rfl
  | cons c m =>
    obtain ⟨a, v⟩ := c
    rw [Memory.wfFrom_cons] at h ⊢
    exact ⟨by omega, h.2⟩

theorem Memory.wfFrom_erase {lo : Nat} {m : Memory} (a : Nat) (h : Memory.wfFrom lo m = true) :
    Memory.wfFrom lo (Memory.erase m a) = true := by
  induction m generalizing lo with
  | nil => rfl
  | cons c m ih =>
    obtain ⟨x, v⟩ := c
    rw [Memory.wfFrom_cons] at h
    simp only [Memory.erase]
    split_ifs
    · exact Memory.wfFrom_mono (ih h.2.2.2) (by omega)
    · rw [Memory.wfFrom_cons]
      exact ⟨h.1, h.2.1, h.2.2.1, ih h.2.2.2⟩

theorem Memory.wfFrom_insert {lo a : Nat} {v : Word} {m : Memory} (h : Memory.wfFrom lo m = true) (hlo : lo ≤ a)
    (ha : a < 100) (hv : v ≠ Memory.unlisted) (hm : ∀ c ∈ m, c.1 ≠ a) : Memory.wfFrom lo (Memory.insert m a v) = true := by
  induction m generalizing lo with
  | nil => exact Memory.wfFrom_cons.mpr ⟨hlo, ha, hv, rfl⟩
  | cons c m ih =>
    obtain ⟨x, u⟩ := c
    have hx : x ≠ a := hm _ (List.mem_cons_self ..)
    rw [Memory.wfFrom_cons] at h
    simp only [Memory.insert]
    split_ifs with hax
    · exact Memory.wfFrom_cons.mpr ⟨hlo, ha, hv, Memory.wfFrom_cons.mpr ⟨hax, h.2⟩⟩
    · exact Memory.wfFrom_cons.mpr ⟨h.1, h.2.1, h.2.2.1,
        ih h.2.2.2 (by omega) fun c hc => hm c (List.mem_cons_of_mem _ hc)⟩

/-- The one operation that changes memory keeps its canonical form. -/
theorem Memory.wf_write {m : Memory} {a : Nat} (v : Word) (h : Memory.wf m = true) (ha : a < 100) :
    Memory.wf (Memory.write m a v) = true := by
  unfold Memory.write
  split_ifs with hv
  · exact Memory.wfFrom_erase a h
  · exact Memory.wfFrom_insert (Memory.wfFrom_erase a h) (Nat.zero_le a) ha hv fun c hc => (Memory.ne_of_mem_erase hc).1

theorem reset_memory_wf : Memory.wf State.reset.mem = true := rfl

theorem memRead_memWrite (a b : Nat) (v : Word) (s : State) :
    memRead (memWrite a v s) b = if b = a then v else memRead s b := Memory.read_write s.mem a b v

theorem memWrite_memory_wf {s : State} {a : Nat} (v : Word) (h : Memory.wf s.mem = true) (ha : a < 100) :
    Memory.wf (memWrite a v s).mem = true := Memory.wf_write v h ha

end Sys2Proof.Machine
end

