-- ==== Sys2Proof/Laws/Boot.lean ====
section
/-! SUPPORT. The loader's image is in the canonical form, and so is the memory that a run starts with. -/

namespace Sys2Proof.Machine

theorem consCell_wfFrom {n : Nat} {m : Memory} (w : Word) (hn : n < 100) (hm : Memory.wfFrom (n + 1) m = true) :
    Memory.wfFrom n (consCell n w m) = true := by
  unfold consCell
  split_ifs with h
  · exact Memory.wfFrom_mono hm (Nat.le_succ n)
  · exact Memory.wfFrom_cons.mpr ⟨le_refl n, hn, h, hm⟩

theorem loadFrom_wfFrom {values : List Int} : ∀ {n : Nat} {m : Memory}, loadFrom n values = .image m →
    Memory.wfFrom n m = true := by
  induction values with
  | nil => intro n m h; cases h
  | cons v vs ih =>
    intro n m h
    unfold loadFrom at h
    by_cases hs : v = Config.sentinel
    · rw [if_pos hs] at h
      cases h
      rfl
    · rw [if_neg hs] at h
      cases hv : validate v with
      | none => simp [hv] at h
      | some w =>
        by_cases hn : n < Config.memSize
        · cases hr : loadFrom (n + 1) vs with
          | failure k => simp [hv, hn, hr] at h
          | image m' =>
            simp only [hv, if_pos hn, hr, Loaded.image.injEq] at h
            subst h
            exact consCell_wfFrom w hn (ih hr)
        · simp [hv, hn] at h

theorem loadProgram_memory_wf {values : List Int} {m : Memory} (h : loadProgram values = .image m) : Memory.wf m = true :=
  loadFrom_wfFrom h

theorem assertReset_memory_wf {s : State} (h : Memory.wf s.mem = true) : Memory.wf s.assertReset.mem = true := h

end Sys2Proof.Machine
end

