-- ==== Sys2Proof/Laws/Decode.lean ====
section
/-! SUPPORT. What the decoder's parts answer. -/

namespace Sys2Proof

open Sys2Proof.Machine

theorem operationOf_code (i : Instr) : operationOf i.code i.operand = some i := by
  cases i <;> rfl

/-- One row of the map: it is selected, or the rows after it are. -/
theorem operation_row {q c : Int} {i j : Instr} {rest : Option Instr} (h : (if q = c then some i else rest) = some j) :
    (q = c ∧ i = j) ∨ rest = some j := by
  by_cases hq : q = c
  · exact .inl ⟨hq, by simpa [hq] using h⟩
  · exact .inr (by simpa [hq] using h)

/-- The map of 30_encoding.md R64 is injective: what it yields has that code and that operand. -/
theorem operationOf_eq_some {q : Int} {a : Nat} {i : Instr} (h : operationOf q a = some i) :
    q = (i.code : Int) ∧ i.operand = a := by
  unfold operationOf at h
  iterate 12
    rcases operation_row h with ⟨rfl, rfl⟩ | h
    · exact ⟨rfl, rfl⟩
  cases h

theorem operandOut_eq_false {r : Int} : operandOut r = false ↔ 0 ≤ r ∧ r ≤ 99 := by
  simp [operandOut]

theorem operandOut_eq_true {r : Int} : operandOut r = true ↔ r < 0 ∨ 99 < r := by
  simp [operandOut]

/-- Decode succeeds exactly when neither condition of 40_instruction_cycle.md R85 holds, whatever the priority. -/
theorem decodeWith_eq_ok {p : DecodePriority} {w : Int} {i : Instr} :
    decodeWith p w = .ok i ↔
      operandOut (trem w 100) = false ∧ operationOf (tdiv w 100) (trem w 100).toNat = some i := by
  unfold decodeWith
  split <;> simp_all

/-- The two fields of a word that decodes (40_instruction_cycle.md R84). -/
theorem decodeWith_ok_fields {p : DecodePriority} {w : Int} {i : Instr} (h : decodeWith p w = .ok i) :
    tdiv w 100 = (i.code : Int) ∧ trem w 100 = (i.operand : Int) ∧ i.operand < 100 := by
  obtain ⟨ho, hi⟩ := decodeWith_eq_ok.mp h
  obtain ⟨hq, ha⟩ := operationOf_eq_some hi
  obtain ⟨h0, h1⟩ := operandOut_eq_false.mp ho
  exact ⟨hq, by omega, by omega⟩

/-- A decode error is one of the two kinds of 40_instruction_cycle.md R85. -/
theorem decodeWith_err_kind {p : DecodePriority} {w : Int} {k : ErrorKind} (h : decodeWith p w = .err k) :
    k = .operandOutOfRange ∨ k = .unknownOperation := by
  unfold decodeWith at h
  split at h <;> simp_all

theorem Instr.code_mem_opcodes (i : Instr) : i.code ∈ opcodes := by
  cases i <;> simp [Instr.code, opcodes]

end Sys2Proof
end

