-- ==== Sys2Proof/Laws/PerInstr.lean ====
section
/-! SUPPORT. The statements made once per instruction. -/

namespace Sys2Proof.Laws

/-- The word of a well-formed instruction lies in its row's range of 30_encoding.md R64: the two code digits, then the
operand. -/
def WordRange.Statement (i : Instr) : Prop :=
  i.WellFormed → (i.code : Int) * 100 ≤ encode i ∧ encode i ≤ (i.code : Int) * 100 + 99 ∧ 1000 ≤ encode i ∧ encode i ≤ 4399

theorem WordRange.of_code {i : Instr} (h : 10 ≤ i.code ∧ i.code ≤ 43) : WordRange.Statement i := by
  intro hw
  simp only [Instr.WellFormed, Config.memSize_eq] at hw
  simp only [encode]
  omega

theorem WordRange.read (a : Nat) : WordRange.Statement (.read a) := WordRange.of_code (by simp [Instr.code])
theorem WordRange.write (a : Nat) : WordRange.Statement (.write a) := WordRange.of_code (by simp [Instr.code])
theorem WordRange.load (a : Nat) : WordRange.Statement (.load a) := WordRange.of_code (by simp [Instr.code])
theorem WordRange.store (a : Nat) : WordRange.Statement (.store a) := WordRange.of_code (by simp [Instr.code])
theorem WordRange.add (a : Nat) : WordRange.Statement (.add a) := WordRange.of_code (by simp [Instr.code])
theorem WordRange.subtract (a : Nat) : WordRange.Statement (.subtract a) := WordRange.of_code (by simp [Instr.code])
theorem WordRange.divide (a : Nat) : WordRange.Statement (.divide a) := WordRange.of_code (by simp [Instr.code])
theorem WordRange.multiply (a : Nat) : WordRange.Statement (.multiply a) := WordRange.of_code (by simp [Instr.code])
theorem WordRange.branch (a : Nat) : WordRange.Statement (.branch a) := WordRange.of_code (by simp [Instr.code])
theorem WordRange.branchNeg (a : Nat) : WordRange.Statement (.branchNeg a) := WordRange.of_code (by simp [Instr.code])
theorem WordRange.branchZero (a : Nat) : WordRange.Statement (.branchZero a) := WordRange.of_code (by simp [Instr.code])
theorem WordRange.halt (a : Nat) : WordRange.Statement (.halt a) := WordRange.of_code (by simp [Instr.code])

end Sys2Proof.Laws
end

