-- ==== Sys2Proof/Laws/Step.lean ====
section
/-! SUPPORT. What each shared operation of Execute answers, and once everything that a step can do. -/

namespace Sys2Proof.Machine

theorem atAddress_of_lt {a : Nat} (r : Result) (h : a < 100) : atAddress a r = r := if_pos h

theorem atAddress_of_le {a : Nat} (r : Result) (h : 100 ≤ a) : atAddress a r = .fault (.noSuchAddress a) :=
  if_neg (by simp; omega)

theorem withCell_of_lt {a : Nat} (s : State) (f : Word → Result) (h : a < 100) : withCell a s f = f (memRead s a) :=
  atAddress_of_lt _ h

/-- The candidate is a Word: it is committed and the counter advances (43_arithmetic.md R120). -/
theorem commitAcc_of_word {c : Int} {w : Word} (s : State) (h : w.val = c) :
    commitAcc c s = .next (advance (setAcc w s)) := by
  simp [commitAcc, validate_eq_some_iff.mpr h]

/-- The candidate is no Word: nothing is committed (43_arithmetic.md R120). -/
theorem commitAcc_of_invalid {c : Int} (s : State) (h : c < -9999 ∨ 9999 < c) : commitAcc c s = raise .invalidWord s := by
  simp [commitAcc, validate_eq_none_iff.mpr h]

/-- Everything that `commitAcc` can do. -/
theorem commitAcc_cases (c : Int) (s : State) :
    (∃ w : Word, w.val = c ∧ commitAcc c s = .next (advance (setAcc w s))) ∨
      ((c < -9999 ∨ 9999 < c) ∧ commitAcc c s = raise .invalidWord s) := by
  by_cases h : c < -9999 ∨ 9999 < c
  · exact .inr ⟨h, commitAcc_of_invalid s h⟩
  · have h' : -9999 ≤ c ∧ c ≤ 9999 := by omega
    exact .inl ⟨⟨c, h'⟩, rfl, commitAcc_of_word s rfl⟩

theorem counterInRange_iff (s : State) : counterInRange s = true ↔ s.ic < 100 := by
  simp [counterInRange]

theorem stepWith_running {p : DecodePriority} {s : State} (h : s.status = .run) : stepWith p s = runCycle p s := by
  simp [stepWith, h]

theorem running_of_stepWith_next {p : DecodePriority} {s t : State} (h : stepWith p s = .next t) : s.status = .run := by
  unfold stepWith at h
  split at h <;> simp_all

/-- A step that answers a next state: Fetch failed, or Decode failed, or a decoded instruction was executed
(40_instruction_cycle.md R82). -/
theorem stepWith_cases {p : DecodePriority} {s t : State} (h : stepWith p s = .next t) :
    (100 ≤ s.ic ∧ t = { s with status := .failed .counterOutOfRange }) ∨
      (s.ic < 100 ∧ ∃ k, decodeWith p (memRead s s.ic).val = .err k ∧ t = { loadIr s with status := .failed k }) ∨
      (s.ic < 100 ∧ ∃ i, decodeWith p (memRead s s.ic).val = .ok i ∧ exec i (latchDecoded i (loadIr s)) = .next t) := by
  rw [stepWith_running (running_of_stepWith_next h), runCycle, fetchDecode] at h
  by_cases hc : s.ic < 100
  · rw [if_pos ((counterInRange_iff s).mpr hc)] at h
    cases hd : decodeWith p (memRead s s.ic).val with
    | ok i => exact .inr (.inr ⟨hc, i, rfl, by simpa [hd] using h⟩)
    | err k =>
      refine .inr (.inl ⟨hc, k, rfl, ?_⟩)
      simp only [hd, raise_eq] at h
      exact (Host.Outcome.next.inj h).symm
  · rw [if_neg (mt (counterInRange_iff s).mp hc)] at h
    exact .inl ⟨by omega, (Host.Outcome.next.inj h).symm⟩

theorem stepWith_counterOutOfRange {p : DecodePriority} {s : State} (hr : s.status = .run) (h : 100 ≤ s.ic) :
    stepWith p s = .next { s with status := .failed .counterOutOfRange } := by
  rw [stepWith_running hr, runCycle, fetchDecode, if_neg (mt (counterInRange_iff s).mp (by omega)), raise_eq]

theorem stepWith_decodeError {p : DecodePriority} {s : State} {k : ErrorKind} (hr : s.status = .run) (h : s.ic < 100)
    (hd : decodeWith p (memRead s s.ic).val = .err k) : stepWith p s = .next { loadIr s with status := .failed k } := by
  rw [stepWith_running hr, runCycle, fetchDecode, if_pos ((counterInRange_iff s).mpr h), hd]
  rfl

theorem stepWith_decoded {p : DecodePriority} {s : State} {i : Instr} (hr : s.status = .run) (h : s.ic < 100)
    (hd : decodeWith p (memRead s s.ic).val = .ok i) : stepWith p s = exec i (latchDecoded i (loadIr s)) := by
  rw [stepWith_running hr, runCycle, fetchDecode, if_pos ((counterInRange_iff s).mpr h), hd]

theorem step_eq (s : State) : step s = stepWith Config.decodePriority s := rfl

/-- The instruction a step executes, seen from the state. -/
theorem currentInstr_eq_some {s : State} {i : Instr} :
    currentInstr s = some i ↔
      s.status = .run ∧ s.ic < 100 ∧ decodeWith Config.decodePriority (memRead s s.ic).val = .ok i := by
  simp only [currentInstr, fetchDecode]
  by_cases hr : s.status = .run <;> by_cases hc : counterInRange s = true <;>
    cases hd : decodeWith Config.decodePriority (memRead s s.ic).val <;>
    simp_all [counterInRange_iff]

end Sys2Proof.Machine
end

