-- ==== Sys2Proof/Tests/Slice0.lean ====
section
/-! SUPPORT. The model's own tests. Every expected value is a vector of spec/95_test_vectors.md (its id is in the comment)
or a word written out from the encoding of 30_encoding.md R64; the witnesses at the end show for each statement a concrete
input that meets its hypotheses. -/

namespace Sys2Proof.Tests

open Sys2Proof Sys2Proof.Machine

/-- A Word from its value. -/
def word (v : Int) (h : -9999 ≤ v ∧ v ≤ 9999 := by decide) : Word := ⟨v, h⟩

/-- The next state, if the outcome is one. -/
def after : Result → Option State
  | .next s => some s
  | _ => none

/-- A running state with the given accumulator, counter and cells, everything else as after reset. -/
def at_ (acc : Word) (ic : Nat) (cells : Memory) : State := { State.reset with acc := acc, ic := ic, mem := cells }

/-- The same with an input sequence and a cursor. -/
def feed (s : State) (inputs : List Int) (incur : Nat) : State := { s with inputs := inputs, incur := incur }

/-- What a test looks at after one step. -/
def look (s : State) : Option (Int × Nat × Status) := (after (step s)).map fun t => (t.acc.val, t.ic, t.status)

/-- A cell and the cursor after one step. -/
def lookMem (s : State) (a : Nat) : Option (Int × Nat) := (after (step s)).map fun t => ((memRead t a).val, t.incur)

/-! ### Well-formedness -/

theorem test_operand_99_well_formed : (Instr.load 99).WellFormed := by decide
theorem test_operand_100_refused : ¬ (Instr.load 100).WellFormed := by decide
theorem test_halt_operand_checked_too : ¬ (Instr.halt 100).WellFormed := by decide

/-! ### Decoding: words written out from R64; the refused words are of 95_test_vectors.md 2.2 -/

theorem test_decode_read : decode 1005 = .ok (.read 5) := by decide
theorem test_decode_write : decode 1105 = .ok (.write 5) := by decide
theorem test_decode_load : decode 2010 = .ok (.load 10) := by decide
theorem test_decode_store : decode 2150 = .ok (.store 50) := by decide
theorem test_decode_add : decode 3011 = .ok (.add 11) := by decide
theorem test_decode_subtract : decode 3111 = .ok (.subtract 11) := by decide
theorem test_decode_divide : decode 3211 = .ok (.divide 11) := by decide
theorem test_decode_multiply : decode 3311 = .ok (.multiply 11) := by decide
theorem test_decode_branch : decode 4099 = .ok (.branch 99) := by decide
theorem test_decode_branchNeg : decode 4104 = .ok (.branchNeg 4) := by decide
theorem test_decode_branchZero : decode 4205 = .ok (.branchZero 5) := by decide
theorem test_decode_halt : decode 4399 = .ok (.halt 99) := by decide
theorem test_decode_unknown_codes :
    [0, 999, 1200, 1999, 2200, 2999, 3400, 3999, 4400, 9999, -100, -4300].map decode =
      List.replicate 12 (.err .unknownOperation) := by decide
theorem test_decode_negative_operandFirst :
    [-1, -99, -1005, -4301, -9999].map (decodeWith .operandFirst) = List.replicate 5 (.err .operandOutOfRange) := by decide
theorem test_decode_negative_opcodeFirst :
    [-1, -99, -1005, -4301, -9999].map (decodeWith .opcodeFirst) = List.replicate 5 (.err .unknownOperation) := by decide

/-- The table's notation of `3211`, `0011 0010 0001 0001`. -/
theorem test_notation_divide : decodeTableWord 16 0x3211 = some (.divide 11) := by decide
/-- A units digit of 10 is no decimal digit. -/
theorem test_notation_no_digit : decodeTableWord 16 0x320A = none := by decide
/-- A hundreds digit of 10 is none either: 2005 would be load. -/
theorem test_notation_no_hundreds_digit : decodeTableWord 16 0x1A05 = none := by decide
theorem test_encode_multiply : encode (.multiply 11) = 3311 := by decide

/-! ### One step of each instruction -/

/-- RD1. -/
theorem test_read_plain : lookMem (feed (at_ Word.zero 0 [(0, word 1005)]) [42] 0) 5 = some (42, 1) := by decide
/-- RD4: rejected, the element consumed, the cell kept. -/
theorem test_read_rejects :
    lookMem (feed (at_ Word.zero 0 [(0, word 1005), (5, word 7)]) [10000] 0) 5 = some (7, 1) := by decide
/-- WR2: the instruction's own word is emitted. -/
theorem test_write_own_word :
    (after (step (at_ Word.zero 0 [(0, word 1100)]))).map (fun t => t.out.map fun c => (c.1, c.2.val)) =
      some [(0, 1100)] := by decide
/-- WR5. -/
theorem test_write_keeps_acc : look (at_ (word 555) 0 [(0, word 1199), (99, word 3)]) = some (555, 1, .run) := by decide
/-- LD1. -/
theorem test_load_least_word : look (at_ (word 5) 0 [(0, word 2010), (10, word (-9999))]) = some (-9999, 1, .run) := by decide
/-- LD4: at address 99 the counter advances to 100. -/
theorem test_load_at_99 : look (at_ Word.zero 99 [(10, word 8), (99, word 2010)]) = some (8, 100, .run) := by decide
/-- ST2: the instruction's own cell. -/
theorem test_store_own_cell : lookMem (at_ (word (-1)) 0 [(0, word 2100)]) 0 = some (-1, 0) := by decide
/-- ST3: a zero over cell 99 leaves no entry for it. -/
theorem test_store_zero_is_unlisted :
    (after (step (at_ Word.zero 0 [(0, word 2199), (99, word 5)]))).map (fun t => t.mem) =
      some [(0, word 2199)] := by decide
/-- AD2. -/
theorem test_add_reaches_9999 : look (at_ (word 9998) 1 [(1, word 3011), (11, word 1)]) = some (9999, 2, .run) := by decide
/-- AD3. -/
theorem test_add_rejects_10000 :
    look (at_ (word 9999) 1 [(1, word 3011), (11, word 1)]) = some (9999, 1, .failed .invalidWord) := by decide
/-- SB8: accumulator minus memory. -/
theorem test_subtract_order : look (at_ (word 5) 1 [(1, word 3111), (11, word 20)]) = some (-15, 2, .run) := by decide
/-- SB7. -/
theorem test_subtract_rejects :
    look (at_ (word 9999) 1 [(1, word 3111), (11, word (-1))]) = some (9999, 1, .failed .invalidWord) := by decide
/-- ML2. -/
theorem test_multiply_9999 : look (at_ (word 99) 1 [(1, word 3311), (11, word 101)]) = some (9999, 2, .run) := by decide
/-- ML10: the least candidate. -/
theorem test_multiply_rejects :
    look (at_ (word (-9999)) 1 [(1, word 3311), (11, word 9999)]) = some (-9999, 1, .failed .invalidWord) := by decide
/-- DV16: truncation; floor would give -5000. -/
theorem test_divide_truncates : look (at_ (word (-9999)) 1 [(1, word 3211), (11, word 2)]) = some (-4999, 2, .run) := by decide
/-- DV5. -/
theorem test_divide_by_zero : look (at_ (word 123) 1 [(1, word 3211)]) = some (123, 1, .failed .divisionByZero) := by decide
/-- BR4: backward from 99. -/
theorem test_branch_backward : look (at_ Word.zero 99 [(99, word 4000)]) = some (0, 0, .run) := by decide
/-- BN7 and BN6: taken, and not taken on zero, at address 99. -/
theorem test_branchNeg_taken : look (at_ (word (-1)) 99 [(99, word 4150)]) = some (-1, 50, .run) := by decide
theorem test_branchNeg_not_on_zero : look (at_ Word.zero 99 [(99, word 4150)]) = some (0, 100, .run) := by decide
/-- BZ1 and BZ2. -/
theorem test_branchZero_taken : look (at_ Word.zero 2 [(2, word 4250)]) = some (0, 50, .run) := by decide
theorem test_branchZero_not_on_negative : look (at_ (word (-1)) 2 [(2, word 4250)]) = some (-1, 3, .run) := by decide
/-- HL2: the operand is ignored but latched. -/
theorem test_halt_latches :
    (after (step (at_ (word (-4)) 7 [(7, word 4399)]))).map (fun t => (t.ic, t.opc, t.opd, t.status)) =
      some (7, 43, 99, .halted) := by decide

/-! ### Failures of Fetch and Decode -/

/-- FT1: nothing but STATUS is written. -/
theorem test_counter_out_of_range :
    after (step { at_ (word 4099) 100 [(0, word 4099), (99, word 2000)] with ir := word 2000, opc := 20 }) =
      some { at_ (word 4099) 100 [(0, word 4099), (99, word 2000)] with
        ir := word 2000, opc := 20, status := .failed .counterOutOfRange } := by decide
/-- FT2: the latches keep the previous instruction's fields, IR holds the offending word. -/
theorem test_zero_cell_fetched :
    (after (step { at_ Word.zero 1 [(0, word 2001)] with ir := word 2001, opc := 20, opd := 1 })).map
      (fun t => (t.ir.val, t.opc, t.opd, t.status)) = some (0, 20, 1, .failed .unknownOperation) := by decide
/-- FT4 and FT5. -/
theorem test_negative_word_both_priorities :
    ((after (stepWith .operandFirst (at_ Word.zero 0 [(0, word (-1005))]))).map (fun t => t.status),
      (after (stepWith .opcodeFirst (at_ Word.zero 0 [(0, word (-1005))]))).map (fun t => t.status)) =
      (some (.failed .operandOutOfRange), some (.failed .unknownOperation)) := by decide

/-! ### Loader, ports, host -/

/-- S2. -/
theorem test_loader_example :
    loadProgram [20, 330, 9999, 1007, -99999] =
      .image [(0, word 20), (1, word 330), (2, word 9999), (3, word 1007)] := by decide
theorem test_loader_rejects : loadProgram [20, 20000, -99999] = .failure .loadFailure := by decide
/-- The word of `halt` in the table's notation, placed after reset, halts. -/
theorem test_placed_halt :
    (after (step (State.reset.withFetchWord 16 0x4300))).map (fun t => t.status) = some .halted := by decide
/-- R46: reset memory decodes to the unknown operation 0. -/
theorem test_reset_runs_into_zero : look State.reset = some (0, 0, .failed .unknownOperation) := by decide
/-- 20_memory.md R41: the data read of a divide is at its operand, also when the divisor is zero. -/
theorem test_divide_data_read : (stepActivity (at_ (word 1) 0 [(0, word 3299)])).dataRead = some 99 := by decide
/-- R161. -/
theorem test_err_kind_pins : (pins { State.reset with status := .failed .divisionByZero }).errKind = 7 := by decide

/-! ### Witnesses: for each statement with hypotheses, inputs that meet them, clause by clause -/

/-- `DivisionTruncatesTowardZero`. -/
theorem witness_divisor : ((-100 : Int) ≠ 0) := by decide

/-- `DivideQuotientIsAlwaysAWord`: a non-zero divisor; a divide that commits; one that raises DivisionByZero. -/
theorem witness_divide_next :
    (word (-1)).val ≠ 0 ∧
    (∃ t, exec (.divide 99) (at_ (word (-9999)) 0 [(99, word (-1))]) = .next t) ∧
    (∃ t, exec (.divide 99) (at_ (word 5) 0 []) = .next t ∧ t.status = .failed .divisionByZero) :=
  ⟨by decide, ⟨_, rfl⟩, _, rfl, rfl⟩

/-- `DivisionAtEverySignAndAtZero`: the four sign combinations, a zero cell, and a negative dividend with quotient 0. -/
theorem witness_division_signs :
    ((0 : Int) ≤ 0 ∧ (0 : Int) < 1) ∧ ((-1 : Int) < 0 ∧ (0 : Int) < 1) ∧ ((0 : Int) ≤ 0 ∧ (-1 : Int) < 0) ∧
    (memRead (at_ (word 1) 0 []) 99).val = 0 ∧
    ((at_ (word (-1)) 0 [(99, word 2)]).acc.val < 0 ∧ (memRead (at_ (word (-1)) 0 [(99, word 2)]) 99).val ≠ 0 ∧
      tdiv (-1) 2 = 0) := by decide

/-- `DecodeAndEncodeAreInverse`: a well-formed instruction at the last operand, a word that decodes, a code. -/
theorem witness_round_trip :
    (Instr.halt 99).WellFormed ∧ decodeWith .opcodeFirst 1000 = .ok (.read 0) ∧ 43 ∈ opcodes ∧ 99 < 100 := by decide

/-- `DecodePartitionsAllWords`: a Word at both ends of each class. -/
theorem witness_partition :
    ([1000, 1199, 2000, 2199, 3000, 3399, 4000, 4399].all fun w : Int =>
      (1000 ≤ w ∧ w ≤ 1199) ∨ (2000 ≤ w ∧ w ≤ 2199) ∨ (3000 ≤ w ∧ w ≤ 3399) ∨ (4000 ≤ w ∧ w ≤ 4399)) = true ∧
    ([0, 999, 1200, 1999, 2200, 2999, 3400, 3999, 4400, 9999].all fun w : Int =>
      0 ≤ w ∧ ¬ ((1000 ≤ w ∧ w ≤ 1199) ∨ (2000 ≤ w ∧ w ≤ 2199) ∨ (3000 ≤ w ∧ w ≤ 3399) ∨ (4000 ≤ w ∧ w ≤ 4399))) = true ∧
    ([-100, -9900].all fun w : Int => w < 0 ∧ w % 100 = 0) = true ∧
    ([-1, -9999].all fun w : Int => w < 0 ∧ w % 100 ≠ 0) = true := by decide

/-- `TableNotationReadsDecimalDigits`: for each of the four digits, a word in which that digit alone is above 9. -/
theorem witness_notation :
    (Instr.read 99).WellFormed ∧ (0xA005 < 65536 ∧ 9 < 0xA005 / 4096) ∧ (0x1A05 < 65536 ∧ 9 < 0x1A05 / 256 % 16) ∧
    (0x10A0 < 65536 ∧ 9 < 0x10A0 / 16 % 16) ∧ (0x430F < 65536 ∧ 9 < 0x430F % 16) := by decide

/-- `ReadConsumesValidatesAndStores`: no element; an element just outside the range; one at its edge. -/
theorem witness_read :
    (feed State.reset [1] 1).inputs.length ≤ (feed State.reset [1] 1).incur ∧
    (0 < (feed State.reset [10000] 0).inputs.length ∧ ¬ InWordRange 10000) ∧
    (0 < (feed State.reset [-9999] 0).inputs.length ∧ (word (-9999)).val = -9999) := by decide

/-- `WriteEmitsAddressAndValue`, `LoadMovesTheCellIntoAcc`, `StoreWritesOnlyTheOperandCell`, `BranchSetsTheCounter`,
`HaltEndsTheRun`: the first and the last operand. -/
theorem witness_operands : 0 < 100 ∧ 99 < 100 := by decide

/-- An accumulator, and a cell 99, for the arithmetic. -/
def operands (acc m : Word) : State := at_ acc 0 [(99, m)]

/-- `AddIsExactOrFails`: a sum at the edge of the range, and one just past each edge. -/
theorem witness_add :
    (word 9999).val = (operands (word 9998) (word 1)).acc.val + (memRead (operands (word 9998) (word 1)) 99).val ∧
    (operands (word 9999) (word 1)).acc.val + (memRead (operands (word 9999) (word 1)) 99).val > 9999 ∧
    (operands (word (-9999)) (word (-1))).acc.val + (memRead (operands (word (-9999)) (word (-1))) 99).val < -9999 := by
  decide

/-- `SubtractIsExactOrFails`: the same for a difference. -/
theorem witness_subtract :
    (word (-9999)).val = (operands Word.zero (word 9999)).acc.val - (memRead (operands Word.zero (word 9999)) 99).val ∧
    (operands (word 9999) (word (-1))).acc.val - (memRead (operands (word 9999) (word (-1))) 99).val > 9999 ∧
    (operands (word (-9999)) (word 1)).acc.val - (memRead (operands (word (-9999)) (word 1)) 99).val < -9999 := by decide

/-- `MultiplyIsExactOrFails`: the same for a product. -/
theorem witness_multiply :
    (word 9999).val = (operands (word 99) (word 101)).acc.val * (memRead (operands (word 99) (word 101)) 99).val ∧
    ((operands (word 100) (word 100)).acc.val * (memRead (operands (word 100) (word 100)) 99).val).natAbs > 9999 ∧
    ((operands (word (-100)) (word 100)).acc.val * (memRead (operands (word (-100)) (word 100)) 99).val).natAbs > 9999 := by
  decide

/-- `DivideTruncatesOrFailsOnZero`: a zero and a non-zero cell. -/
theorem witness_divide_cells :
    (memRead State.reset 0).val = 0 ∧ (memRead (operands (word 5) (word (-1))) 99).val ≠ 0 := by decide

/-- `BranchNegTestsTheSign`, `BranchZeroTestsForZero`: the accumulators next to zero. -/
theorem witness_branch_conditions :
    (at_ (word (-1)) 0 []).acc.val < 0 ∧ 0 ≤ State.reset.acc.val ∧ State.reset.acc.val = 0 ∧
    (at_ (word 1) 0 []).acc.val ≠ 0 ∧ (at_ (word (-1)) 0 []).acc.val ≠ 0 := by decide

/-- `IllFormedInstructionStops`, `ExecuteAlwaysCompletesAndKeepsLatches`. -/
theorem witness_operand_bounds : ¬ (Instr.branch 100).WellFormed ∧ (Instr.branch 99).WellFormed := by decide

/-- `StepRunsTheDecodedInstruction`, `OldLatchesAreNeverRead`, and the step of `HaltEndsTheRun`: a running state at the last
address. -/
theorem witness_decoded_step :
    (at_ Word.zero 99 [(99, word 4300)]).status = .run ∧
    decode (memRead (at_ Word.zero 99 [(99, word 4300)]) 99).val = .ok (.halt 0) ∧
    currentInstr (at_ Word.zero 99 [(99, word 4300)]) = some (.halt 0) := by decide

/-- `FetchOutsideMemoryFails`: the counter just past memory. -/
theorem witness_fetch_outside : (at_ Word.zero 100 []).status = .run ∧ 100 ≤ (at_ Word.zero 100 []).ic := by decide

/-- A running state at the last address with that word in it. -/
def fetching (v : Word) : State := at_ Word.zero 99 [(99, v)]

/-- `DecodeFailureKeepsTheLatches`: a word with both conditions, one with only the unknown code, one with neither, each in
a running state whose Fetch succeeds. -/
theorem witness_decode_conditions :
    ((fetching (word (-1005))).status = .run ∧ (fetching (word (-1005))).ic < 100 ∧
      trem (memRead (fetching (word (-1005))) 99).val 100 < 0) ∧
    ((fetching (word 4400)).status = .run ∧ (∀ c ∈ opcodes, tdiv (memRead (fetching (word 4400)) 99).val 100 ≠ (c : Int)) ∧
      ¬ (trem (memRead (fetching (word 4400)) 99).val 100 < 0 ∨ 99 < trem (memRead (fetching (word 4400)) 99).val 100)) ∧
    ((fetching (word 1099)).status = .run ∧ ¬ (∀ c ∈ opcodes, tdiv (memRead (fetching (word 1099)) 99).val 100 ≠ (c : Int)) ∧
      ¬ (trem (memRead (fetching (word 1099)) 99).val 100 < 0 ∨ 99 < trem (memRead (fetching (word 1099)) 99).val 100)) := by
  decide

/-- `StepIsEnabledExactlyInRun`: a state of each status, and a halting step. -/
theorem witness_statuses :
    State.reset.status = .run ∧ ({ State.reset with status := .halted } : State).status = .halted ∧
    ({ State.reset with status := .failed .invalidWord } : State).status = .failed .invalidWord ∧
    ∃ t, step (at_ Word.zero 0 [(0, word 4300)]) = .next t ∧ t.status = .halted :=
  ⟨rfl, rfl, rfl, _, rfl, rfl⟩

/-- `EachErrorIsRaisedExactlyWhen`: every kind of the CORE is raised from some running state. -/
theorem witness_errors :
    FailsWith .operandFirst (at_ Word.zero 100 []) .counterOutOfRange ∧
    FailsWith .operandFirst (at_ Word.zero 99 [(99, word (-1))]) .operandOutOfRange ∧
    FailsWith .opcodeFirst (at_ Word.zero 99 [(99, word (-1))]) .unknownOperation ∧
    FailsWith .operandFirst (at_ Word.zero 0 [(0, word 1099)]) .inputExhausted ∧
    FailsWith .operandFirst (feed (at_ Word.zero 0 [(0, word 1099)]) [10000] 0) .invalidWord ∧
    FailsWith .operandFirst (at_ (word 9999) 0 [(0, word 3099), (99, word 1)]) .invalidWord ∧
    FailsWith .operandFirst (at_ (word 9999) 0 [(0, word 3199), (99, word (-1))]) .invalidWord ∧
    FailsWith .operandFirst (at_ (word 100) 0 [(0, word 3399), (99, word 100)]) .invalidWord ∧
    FailsWith .operandFirst (at_ (word 1) 0 [(0, word 3299)]) .divisionByZero :=
  ⟨⟨_, rfl, rfl⟩, ⟨_, rfl, rfl⟩, ⟨_, rfl, rfl⟩, ⟨_, rfl, rfl⟩, ⟨_, rfl, rfl⟩, ⟨_, rfl, rfl⟩, ⟨_, rfl, rfl⟩, ⟨_, rfl, rfl⟩, _, rfl, rfl⟩

/-- `FailingStepWritesOnlyWhatTheTableLists`: its two premises at their bounds, in a state whose step fails
(the other kinds are in `witness_errors`). -/
theorem witness_failing_step :
    let s := feed (at_ Word.zero 100 []) [7] 1
    s.ic ≤ 100 ∧ s.incur ≤ s.inputs.length ∧
      ∃ t, stepWith .operandFirst s = .next t ∧ t.status = .failed .counterOutOfRange :=
  ⟨by decide, by decide, _, rfl, rfl⟩

/-- `PriorityChangesOnlyTheReportedKind`: a state on each side of its condition. -/
theorem witness_priority :
    ((fetching (word (-1))).status = .run ∧ (fetching (word (-1))).ic < 100 ∧ (memRead (fetching (word (-1))) 99).val < 0 ∧
      ¬ (100 : Int) ∣ (memRead (fetching (word (-1))) 99).val) ∧
    ¬ ((memRead (fetching (word 1000)) 99).val < 0) := by decide

/-- `AccIsWrittenOnlyByLoadAndArithmetic`: a step that changes ACC. -/
theorem witness_acc_changes :
    ∃ t, step (at_ Word.zero 0 [(0, word 2000)]) = .next t ∧ t.acc ≠ (at_ Word.zero 0 [(0, word 2000)]).acc :=
  ⟨_, rfl, by decide⟩

/-- `MemoryIsWrittenOnlyAtTheOperandOfReadAndStore`: a step that changes cell 99. -/
theorem witness_cell_changes :
    ∃ t, step (at_ (word 1) 0 [(0, word 2199)]) = .next t ∧
      memRead t 99 ≠ memRead (at_ (word 1) 0 [(0, word 2199)]) 99 :=
  ⟨_, rfl, by decide⟩

/-- `CounterAdvancesBranchesOrStays`: a failing step, one that does not fail, and the advance from 99. -/
theorem witness_counter :
    (∃ t, step State.reset = .next t ∧ t.status = .failed .unknownOperation) ∧
    (∃ t, step (at_ Word.zero 0 [(0, word 4000)]) = .next t ∧ ∀ k, t.status ≠ .failed k) ∧
    (∃ t, step (at_ Word.zero 99 [(99, word 2000)]) = .next t ∧ t.status = .run ∧ t.ic = 99 + 1) :=
  ⟨⟨_, rfl, rfl⟩, ⟨_, rfl, fun _ h => nomatch h⟩, _, rfl, rfl, rfl⟩

/-- `CursorAndOutputLogMoveOnlyByReadAndWrite`: a read that finds an element, one that finds none, a write, a load. -/
theorem witness_cursor_and_log :
    (currentInstr (feed (at_ Word.zero 0 [(0, word 1099)]) [7] 0) = some (.read 99) ∧
      (feed (at_ Word.zero 0 [(0, word 1099)]) [7] 0).incur < (feed (at_ Word.zero 0 [(0, word 1099)]) [7] 0).inputs.length) ∧
    ¬ (feed (at_ Word.zero 0 [(0, word 1099)]) [7] 1).incur < (feed (at_ Word.zero 0 [(0, word 1099)]) [7] 1).inputs.length ∧
    currentInstr (at_ Word.zero 0 [(0, word 1199)]) = some (.write 99) ∧
    currentInstr (at_ Word.zero 0 [(0, word 2099)]) = some (.load 99) := by decide

/-- `NoLookaheadIntoTheInputs`: a sequence that agrees at the cursor and differs on both sides; an instruction not a read. -/
theorem witness_lookahead :
    ([1, 6, 8, 9] : List Int)[(feed State.reset [5, 6, 7] 1).incur]? =
      (feed State.reset [5, 6, 7] 1).inputs[(feed State.reset [5, 6, 7] 1).incur]? ∧
    ∀ a, Instr.write 0 ≠ .read a :=
  ⟨rfl, fun _ h => nomatch h⟩

/-- `WrittenWordIsFetchedByTheNextStep`: a store and a read into the next cell. -/
theorem witness_self_modification :
    currentInstr (at_ (word 4300) 98 [(98, word 2199)]) = some (.store 99) ∧
    currentInstr (feed (at_ Word.zero 98 [(98, word 1099)]) [4300] 0) = some (.read 99) ∧ 99 = 98 + 1 := by decide

/-- `StepKeepsTheInvariant`, `StartOfARunMeetsTheInvariant`: the invariant holds at reset, and a step answers a next state. -/
theorem witness_invariant : State.reset.Inv ∧ ∃ t, step State.reset = .next t :=
  ⟨{ memory := rfl, counter := by decide, opcode := .inl rfl, operand := by decide, cursor := by decide,
     emitted := fun _ h => (by cases h), loader := fun h => (by cases h), decoded := fun _ => ⟨rfl, rfl⟩ }, _, rfl⟩

/-- `RunsCountReadsAndWrites`: a run of one step that is a read which finds its element, from a canonical image; and a
step that ends at 100. -/
theorem witness_run :
    Memory.wf [(0, word 1099)] = true ∧
    (∃ t, Run [(0, word 1099)] [7] 1 0 t ∧ t.incur = 1) ∧
    (∃ t, step (at_ Word.zero 99 [(99, word 2000)]) = .next t ∧ t.ic = 100) :=
  ⟨by decide, ⟨_, Run.step Run.start rfl, rfl⟩, _, rfl, rfl⟩

/-- `EveryRunHaltsFailsOrNeverEnds`: a run that has ended after one step. -/
theorem witness_ended_run : (runFor 1 (State.start [(0, word 4300)] [])).status ≠ .run ∧ 1 ≤ 2 := by decide

/-- `BranchToItselfNeverEnds`. -/
theorem witness_self_branch :
    (at_ Word.zero 99 [(99, word 4099)]).status = .run ∧ (at_ Word.zero 99 [(99, word 4099)]).ic = 99 ∧
    (memRead (at_ Word.zero 99 [(99, word 4099)]) 99).val = 4000 + 99 := by decide

/-- `RunWithoutBackwardBranchEndsWithin101Steps`: a run that branches forward from 0 to 99 and halts there. -/
theorem witness_no_backward_branch :
    ∀ n, n < 101 → takesBackwardBranch (runFor n (at_ Word.zero 0 [(0, word 4099), (99, word 4300)])) = false
  | 0, _ => rfl
  | 1, _ => rfl
  | 2, _ => rfl
  | _ + 3, _ => rfl

/-- `CanonicalMemoriesThatReadAlikeAreEqual`. -/
theorem witness_canonical :
    Memory.wf [(0, word 1), (99, word (-1))] = true ∧ Memory.wf [(0, Word.zero)] = false ∧
    Memory.wf [(1, word 1), (0, word 1)] = false ∧ Memory.wf [(100, word 1)] = false := by decide

/-- `LoaderFillsFromCellZeroOrRejects`: a full image, a value just outside the range, and one word too many. -/
theorem witness_loader :
    (List.replicate 100 Word.zero).length ≤ 100 ∧ ((10000 : Int) ≠ -99999 ∧ ¬ InWordRange 10000) ∧
    100 < (List.replicate 101 Word.zero).length := by decide

/-- `PortsShowWhatTheStepDoes`: a step whose Fetch fails, one whose Fetch succeeds, a store, a read that finds a Word. -/
theorem witness_ports :
    (∃ t, step (at_ Word.zero 100 []) = .next t) ∧ (∃ t, step (at_ Word.zero 99 []) = .next t) ∧
    currentInstr (fetching (word 2199)) = some (.store 99) ∧
    currentInstr (feed (fetching (word 1099)) [-9999] 0) = some (.read 99) ∧
    (feed (fetching (word 1099)) [-9999] 0).inputs[(feed (fetching (word 1099)) [-9999] 0).incur]? = some (word (-9999)).val :=
  ⟨⟨_, rfl⟩, ⟨_, rfl⟩, by decide, by decide, rfl⟩

/-- `PlacedWordIsRunByTheNextStep`: `read 99` placed at the last address. -/
theorem witness_placed_word :
    (at_ Word.zero 99 []).status = .run ∧ (at_ Word.zero 99 []).ic < 100 ∧ decodeTableWord 16 0x1099 = some (.read 99) := by
  decide

end Sys2Proof.Tests
end

section
/-! PROOFS. The statement of the family 00_scope.md (R8), and the laws of quotient and remainder it is made of. -/

namespace Sys2Proof.Machine

theorem natAbs_tdiv (a b : Int) : (tdiv a b).natAbs = a.natAbs / b.natAbs := by
  rw [tdiv_eq_tdiv]
  exact Int.natAbs_tdiv a b

theorem natAbs_trem (a b : Int) : (trem a b).natAbs = a.natAbs % b.natAbs := by
  rw [trem_eq_tmod, Int.natAbs_tmod]

theorem natAbs_trem_lt (a : Int) {b : Int} (hb : b ≠ 0) : (trem a b).natAbs < b.natAbs := by
  rw [natAbs_trem]
  exact Nat.mod_lt _ (Int.natAbs_pos.mpr hb)

/-- R8: the split is on whether the division comes out even. -/
theorem trem_eq_zero_or_sign_eq (a b : Int) : trem a b = 0 ∨ (trem a b).sign = a.sign := by
  rw [trem_eq_tmod]
  by_cases hdvd : b ∣ a
  · exact .inl (Int.tmod_eq_zero_of_dvd hdvd)
  · right
    rw [Int.sign_tmod, if_neg hdvd]

/-- Settles O1: the first two clauses are the definitions, the other three the laws above; the rule's worked values
are computed. -/
theorem divisionTruncatesTowardZero : Obligations.DivisionTruncatesTowardZero := by
  unfold Obligations.DivisionTruncatesTowardZero
  constructor
  · intro a b hb
    exact ⟨rfl, rfl, trem_eq_zero_or_sign_eq a b, natAbs_trem_lt a hb, natAbs_tdiv a b⟩
  · decide

end Sys2Proof.Machine
end

section
/-! PROOFS. The statement of the family 10_state.md (R30): what Execute leaves in STATUS, and that a step is enabled
exactly in RUN. -/

namespace Sys2Proof.Machine

/-- The meaning of an instruction, given state `s`, completes, with STATUS as it was or FAILED. -/
def KeepsStatusOrFails (s : State) (r : Result) : Prop :=
  ∃ t, r = .next t ∧ (t.status = s.status ∨ ∃ k, t.status = .failed k)

theorem keepsStatusOrFails_next {s t : State} (h : t.status = s.status) : KeepsStatusOrFails s (.next t) :=
  ⟨t, rfl, .inl h⟩

theorem keepsStatusOrFails_raise (k : ErrorKind) (s t : State) : KeepsStatusOrFails s (raise k t) :=
  ⟨_, raise_eq k t, .inr ⟨k, rfl⟩⟩

theorem keepsStatusOrFails_atAddress {a : Nat} {s : State} {r : Result} (ha : a < 100) (h : KeepsStatusOrFails s r) :
    KeepsStatusOrFails s (atAddress a r) := by
  rwa [atAddress_of_lt r ha]

theorem keepsStatusOrFails_withCell {a : Nat} {s : State} {f : Word → Result} (ha : a < 100)
    (h : ∀ v, KeepsStatusOrFails s (f v)) : KeepsStatusOrFails s (withCell a s f) :=
  keepsStatusOrFails_atAddress ha (h _)

theorem keepsStatusOrFails_commitAcc (c : Int) (s : State) : KeepsStatusOrFails s (commitAcc c s) := by
  rcases commitAcc_cases c s with ⟨w, -, h⟩ | ⟨-, h⟩
  · rw [h]
    exact keepsStatusOrFails_next rfl
  · rw [h]
    exact keepsStatusOrFails_raise _ s s

/-- The divisor is 0, or there is a quotient to commit (43_arithmetic.md R124). -/
theorem keepsStatusOrFails_execDivide {a : Nat} (ha : a < 100) (s : State) : KeepsStatusOrFails s (execDivide a s) := by
  refine keepsStatusOrFails_withCell ha fun m => ?_
  split
  · exact keepsStatusOrFails_raise _ s s
  · exact keepsStatusOrFails_commitAcc _ s

/-- The three forms of 41_io.md R100: no element, an element that is no Word, a Word. -/
theorem keepsStatusOrFails_execRead {a : Nat} (ha : a < 100) (s : State) : KeepsStatusOrFails s (execRead a s) := by
  refine keepsStatusOrFails_atAddress ha ?_
  split
  · exact keepsStatusOrFails_raise _ s s
  · split
    · exact keepsStatusOrFails_raise _ s (inPop s)
    · exact keepsStatusOrFails_next rfl

/-- A conditional branch is taken or not; the run goes on either way (44_control.md R131, R132). -/
theorem keepsStatusOrFails_branchOrAdvance (a : Nat) (c : Bool) (s : State) :
    KeepsStatusOrFails s (.next (if c then branchTo a s else advance s)) := by
  cases c <;> exact keepsStatusOrFails_next rfl

/-- No instruction but `halt` ends the run normally (44_control.md R133). -/
theorem keepsStatusOrFails_exec {i : Instr} (hw : i.WellFormed) (hi : ∀ a, i ≠ .halt a) (s : State) :
    KeepsStatusOrFails s (exec i s) := by
  cases i with
  | read a => exact keepsStatusOrFails_execRead hw s
  | write a => exact keepsStatusOrFails_withCell hw fun _ => keepsStatusOrFails_next rfl
  | load a => exact keepsStatusOrFails_withCell hw fun _ => keepsStatusOrFails_next rfl
  | store a => exact keepsStatusOrFails_atAddress hw (keepsStatusOrFails_next rfl)
  | add a => exact keepsStatusOrFails_withCell hw fun _ => keepsStatusOrFails_commitAcc _ s
  | subtract a => exact keepsStatusOrFails_withCell hw fun _ => keepsStatusOrFails_commitAcc _ s
  | divide a => exact keepsStatusOrFails_execDivide hw s
  | multiply a => exact keepsStatusOrFails_withCell hw fun _ => keepsStatusOrFails_commitAcc _ s
  | branch a => exact keepsStatusOrFails_atAddress hw (keepsStatusOrFails_next rfl)
  | branchNeg a => exact keepsStatusOrFails_atAddress hw (keepsStatusOrFails_branchOrAdvance a _ s)
  | branchZero a => exact keepsStatusOrFails_atAddress hw (keepsStatusOrFails_branchOrAdvance a _ s)
  | halt a => exact absurd rfl (hi a)

theorem exec_halt {a : Nat} (ha : a < 100) (s : State) : exec (.halt a) s = .next (haltRun s) :=
  atAddress_of_lt _ ha

/-- Execute of a well-formed instruction in a running state completes, and it halts the run exactly if it is a halt. -/
theorem exec_completes {i : Instr} {s : State} (hw : i.WellFormed) (hr : s.status = .run) :
    ∃ t, exec i s = .next t ∧ (t.status = .halted ↔ ∃ a, i = .halt a) := by
  by_cases hi : ∃ a, i = .halt a
  · obtain ⟨a, rfl⟩ := hi
    exact ⟨_, exec_halt hw s, by simp⟩
  · obtain ⟨t, ht, hs⟩ := keepsStatusOrFails_exec hw (not_exists.mp hi) s
    have hne : t.status ≠ .halted := by
      rcases hs with hs | ⟨k, hs⟩ <;> simp [hs, hr]
    exact ⟨t, ht, iff_of_false hne hi⟩

/-- 20_memory.md R45: Decode presents no instruction that is not well formed. -/
theorem wellFormed_of_decodeWith {p : DecodePriority} {w : Int} {i : Instr} (h : decodeWith p w = .ok i) :
    i.WellFormed := by
  obtain ⟨-, -, hlt⟩ := decodeWith_ok_fields h
  exact hlt

/-- Every phase of the cycle answers a next state, for either priority. -/
theorem stepWith_completes {p : DecodePriority} {s : State} (hr : s.status = .run) : ∃ t, stepWith p s = .next t := by
  by_cases hc : s.ic < 100
  · cases hd : decodeWith p (memRead s s.ic).val with
    | err k => exact ⟨_, stepWith_decodeError hr hc hd⟩
    | ok i =>
      obtain ⟨t, ht, -⟩ :=
        exec_completes (s := latchDecoded i (loadIr s)) (wellFormed_of_decodeWith hd) (by simpa using hr)
      exact ⟨t, by rw [stepWith_decoded hr hc hd, ht]⟩
  · exact ⟨_, stepWith_counterOutOfRange hr (by omega)⟩

/-- R82: the step's guard. -/
theorem stepWith_enabled_iff {p : DecodePriority} {s : State} : (∃ t, stepWith p s = .next t) ↔ s.status = .run :=
  ⟨fun ⟨_, h⟩ => running_of_stepWith_next h, stepWith_completes⟩

/-- A step that fails at Fetch or Decode executes no instruction and leaves a failed state; every other one runs the
instruction it decoded. -/
theorem step_halts_iff {s t : State} (h : step s = .next t) :
    t.status = .halted ↔ ∃ a, currentInstr s = some (.halt a) := by
  have hr : s.status = .run := running_of_stepWith_next h
  rcases stepWith_cases h with ⟨hc, rfl⟩ | ⟨-, k, hd, rfl⟩ | ⟨hc, i, hd, he⟩
  · have hnone : ¬ s.ic < 100 := by omega
    simp [currentInstr_eq_some, hnone]
  · simp [currentInstr_eq_some, hd]
  · obtain ⟨u, hu, hhalt⟩ :=
      exec_completes (s := latchDecoded i (loadIr s)) (wellFormed_of_decodeWith hd) (by simpa using hr)
    obtain rfl : u = t := Host.Outcome.next.inj (hu.symm.trans he)
    simp [hhalt, currentInstr_eq_some.mpr ⟨hr, hc, hd⟩]

theorem step_of_halted {s : State} (h : s.status = .halted) : step s = .fault .halted := by
  simp [step_eq, stepWith, h]

theorem step_of_failed {s : State} {k : ErrorKind} (h : s.status = .failed k) : step s = .fault (.failed k) := by
  simp [step_eq, stepWith, h]

/-- A run stays where it has stopped, whatever the fuel. -/
theorem runFor_of_fault {s : State} {f : Fault} (h : step s = .fault f) (n : Nat) : runFor n s = s := by
  cases n with
  | zero => rfl
  | succ n => simp [runFor, h]

theorem runFor_of_ended {s : State} (h : s.status ≠ .run) (n : Nat) : runFor n s = s := by
  cases hs : s.status with
  | run => exact absurd hs h
  | halted => exact runFor_of_fault (step_of_halted hs) n
  | failed k => exact runFor_of_fault (step_of_failed hs) n

/-- Settles O27: the guard of the step, the one instruction that halts, and the two kinds of ended state. -/
theorem stepIsEnabledExactlyInRun : Obligations.StepIsEnabledExactlyInRun := by
  unfold Obligations.StepIsEnabledExactlyInRun
  exact ⟨fun _ => stepWith_enabled_iff, fun _ _ => step_halts_iff, fun _ => step_of_halted, fun _ _ => step_of_failed,
    fun _ n h => runFor_of_ended h n, start_status⟩

end Sys2Proof.Machine
end

section
/-! PROOFS. The statement of the family 30_encoding.md (R69): decoder and encoder are inverse to each other. -/

namespace Sys2Proof.Machine

/-- R8: quotient and remainder put the dividend together again. -/
theorem tdiv_mul_add_trem (a b : Int) : tdiv a b * b + trem a b = a := by
  rw [trem, Int.mul_comm]
  exact add_sub_cancel _ _

/-- R69: the two fields of the encoded word are the instruction's code and operand, and those select the instruction. -/
theorem decodeWith_encode (p : DecodePriority) {i : Instr} (hw : i.WellFormed) : decodeWith p (encode i) = .ok i := by
  have hq : tdiv (encode i) 100 = i.code := tdiv_hundred i.code i.operand hw
  have hr : trem (encode i) 100 = i.operand := trem_hundred i.code i.operand hw
  rw [decodeWith_eq_ok, hq, hr, Int.toNat_natCast]
  exact ⟨operandOut_eq_false.mpr ⟨Int.natCast_nonneg _, Int.ofNat_le.mpr (Nat.le_of_lt_succ hw)⟩, operationOf_code i⟩

/-- R69: a word that decodes is the sum of its two fields, which are the instruction's code and operand. -/
theorem encode_of_decodeWith {p : DecodePriority} {w : Int} {i : Instr} (h : decodeWith p w = .ok i) :
    encode i = w := by
  obtain ⟨hq, hr, -⟩ := decodeWith_ok_fields h
  calc encode i = tdiv w 100 * 100 + trem w 100 := by rw [hq, hr, encode]
    _ = w := tdiv_mul_add_trem w 100

/-- Settles O5: the two round trips, and the decoder's split of a code with a two-digit operand. -/
theorem decodeAndEncodeAreInverse : Obligations.DecodeAndEncodeAreInverse := by
  unfold Obligations.DecodeAndEncodeAreInverse
  exact ⟨fun p _ hw => decodeWith_encode p hw, fun _ _ _ h => ⟨wellFormed_of_decodeWith h, encode_of_decodeWith h⟩,
    fun c _ a ha => ⟨tdiv_hundred c a ha, trem_hundred c a ha⟩⟩

end Sys2Proof.Machine
end

section
/-! PROOFS. The statement of the family 40_instruction_cycle.md (R80): what the word_validator accepts and rejects. -/

namespace Sys2Proof.Machine

/-- R80: the validator rejects the integers below and above the Word range, and no other. -/
theorem isValid_eq_false_iff {v : Int} : isValid v = false ↔ v < -9999 ∨ 9999 < v := by
  rw [← Bool.not_eq_true, isValid_iff, not_and_or, not_le, not_le]

/-- Settles O2: the range of the validator, and its two bounds with their outer neighbours and zero read off from it. -/
theorem validatorAcceptsExactlyTheWordRange : Obligations.ValidatorAcceptsExactlyTheWordRange := by
  unfold Obligations.ValidatorAcceptsExactlyTheWordRange
  have accepts (v : Int) : -9999 ≤ v ∧ v ≤ 9999 → isValid v = true := (isValid_iff v).mpr
  have rejects (v : Int) : v < -9999 ∨ 9999 < v → isValid v = false := isValid_eq_false_iff.mpr
  exact ⟨isValid_iff, accepts (-9999) (by decide), accepts 9999 (by decide), rejects (-10000) (by decide),
    rejects 10000 (by decide), accepts 0 (by decide)⟩

end Sys2Proof.Machine
end

section
/-! PROOFS. The statement of the family 41_io.md (R101): the word of write, and what its Execute does. -/

namespace Sys2Proof.Machine

/-- R64: the row of write, its operand in the two low digits. -/
theorem encode_write (a : Nat) : encode (.write a) = 1100 + (a : Int) := by
  simp [encode, Instr.code, Instr.operand]

/-- R101: Execute of write is an Emit of the operand's cell and the advance. -/
theorem exec_write {a : Nat} (ha : a < 100) (s : State) :
    exec (.write a) s = .next (advance (emit a (memRead s a) s)) := by
  calc exec (.write a) s = withCell a s fun v => .next (advance (emit a v s)) := rfl
    _ = .next (advance (emit a (memRead s a) s)) := withCell_of_lt s _ ha

theorem advance_emit (a : Nat) (v : Word) (s : State) :
    advance (emit a v s) = { s with out := s.out ++ [(a, v)], ic := s.ic + 1 } := rfl

/-- Settles O11: the word is the encoding of write, which decodes back; Execute writes OUT and IC and no other field. -/
theorem writeEmitsAddressAndValue : Obligations.WriteEmitsAddressAndValue := by
  unfold Obligations.WriteEmitsAddressAndValue
  intro a ha
  constructor
  · intro p
    rw [← encode_write]
    exact decodeWith_encode p ha
  · intro s
    rw [exec_write ha, advance_emit]

end Sys2Proof.Machine
end

section
/-! PROOFS. The statements of the family 42_load_store.md (R110, R111): the words of load and store, and what their
Executes do. -/

namespace Sys2Proof.Machine

/-- R64: the row of load. -/
theorem encode_load (a : Nat) : encode (.load a) = 2000 + (a : Int) := by
  simp [encode, Instr.code, Instr.operand]

/-- R64: the row of store. -/
theorem encode_store (a : Nat) : encode (.store a) = 2100 + (a : Int) := by
  simp [encode, Instr.code, Instr.operand]

/-- R69: a word known to be the encoding of a well-formed instruction decodes to that instruction. -/
theorem decodeWith_of_encode_eq (p : DecodePriority) {i : Instr} {w : Int} (hw : i.WellFormed) (h : encode i = w) :
    decodeWith p w = .ok i :=
  h ▸ decodeWith_encode p hw

/-- R110: the cell's Word goes to ACC as it is, with no validation in between. -/
theorem exec_load {a : Nat} (ha : a < 100) (s : State) :
    exec (.load a) s = .next (advance (setAcc (memRead s a) s)) := by
  calc exec (.load a) s = withCell a s fun v => .next (advance (setAcc v s)) := rfl
    _ = .next (advance (setAcc (memRead s a) s)) := withCell_of_lt s _ ha

/-- R111: Execute of store is one memory write of ACC and the advance. -/
theorem exec_store {a : Nat} (ha : a < 100) (s : State) :
    exec (.store a) s = .next (advance (memWrite a s.acc s)) := by
  calc exec (.store a) s = atAddress a (.next (advance (memWrite a s.acc s))) := rfl
    _ = .next (advance (memWrite a s.acc s)) := atAddress_of_lt _ ha

theorem advance_setAcc (v : Word) (s : State) : advance (setAcc v s) = { s with acc := v, ic := s.ic + 1 } := rfl

theorem advance_memWrite (a : Nat) (v : Word) (s : State) :
    advance (memWrite a v s) = { s with mem := Memory.write s.mem a v, ic := s.ic + 1 } := rfl

/-- Settles O13: Execute writes MEM and IC and no other field, and the write replaces the operand's cell alone
(`Memory.read_write`). -/
theorem storeWritesOnlyTheOperandCell : Obligations.StoreWritesOnlyTheOperandCell := by
  unfold Obligations.StoreWritesOnlyTheOperandCell
  intro a ha
  constructor
  · intro p
    exact decodeWith_of_encode_eq p ha (encode_store a)
  · intro s
    refine ⟨Memory.write s.mem a s.acc, ?_, fun b => Memory.read_write s.mem a b s.acc⟩
    rw [exec_store ha, advance_memWrite]

/-- Settles O12: Execute writes ACC and IC and no other field, and ACC takes the operand's cell. -/
theorem loadMovesTheCellIntoAcc : Obligations.LoadMovesTheCellIntoAcc := by
  unfold Obligations.LoadMovesTheCellIntoAcc
  intro a ha
  constructor
  · intro p
    exact decodeWith_of_encode_eq p ha (encode_load a)
  · intro s
    rw [exec_load ha, advance_setAcc]

end Sys2Proof.Machine
end

section
/-! PROOFS. The statements of the family 43_arithmetic.md (R121 to R127): the words of the four arithmetic instructions,
what their Executes do, and division by the signs of its operands. -/

namespace Sys2Proof.Machine

/-! ### The words of 30_encoding.md R64 -/

theorem encode_add (a : Nat) : encode (.add a) = 3000 + (a : Int) := by
  simp [encode, Instr.code, Instr.operand]

theorem encode_subtract (a : Nat) : encode (.subtract a) = 3100 + (a : Int) := by
  simp [encode, Instr.code, Instr.operand]

theorem encode_multiply (a : Nat) : encode (.multiply a) = 3300 + (a : Int) := by
  simp [encode, Instr.code, Instr.operand]

theorem encode_divide (a : Nat) : encode (.divide a) = 3200 + (a : Int) := by
  simp [encode, Instr.code, Instr.operand]

/-! ### Execute: the candidate and its commit -/

theorem exec_add {a : Nat} (ha : a < 100) (s : State) :
    exec (.add a) s = commitAcc (s.acc.val + (memRead s a).val) s :=
  atAddress_of_lt _ ha

theorem exec_subtract {a : Nat} (ha : a < 100) (s : State) :
    exec (.subtract a) s = commitAcc (s.acc.val - (memRead s a).val) s :=
  atAddress_of_lt _ ha

theorem exec_multiply {a : Nat} (ha : a < 100) (s : State) :
    exec (.multiply a) s = commitAcc (s.acc.val * (memRead s a).val) s :=
  atAddress_of_lt _ ha

theorem exec_divide {a : Nat} (ha : a < 100) (s : State) :
    exec (.divide a) s =
      if (memRead s a).val = 0 then raise .divisionByZero s else commitAcc (tdiv s.acc.val (memRead s a).val) s :=
  atAddress_of_lt _ ha

/-- A divide whose operand is no address does not complete (20_memory.md R45). -/
theorem operand_lt_of_exec_divide {a : Nat} {s t : State} (h : exec (.divide a) s = .next t) : a < 100 := by
  by_contra ha
  have hfault : exec (.divide a) s = .fault (.noSuchAddress a) := atAddress_of_le _ (by omega)
  simp [hfault] at h

/-- R120, R125: the commit that add, subtract and multiply end with, on both sides of the validator's test. -/
theorem commitAcc_exact_or_invalidWord (c : Int) (s : State) :
    (∀ w : Word, w.val = c → commitAcc c s = .next { s with acc := w, ic := s.ic + 1 }) ∧
      (c > 9999 ∨ c < -9999 → commitAcc c s = .next { s with status := .failed .invalidWord }) := by
  constructor
  · intro w hw
    rw [commitAcc_of_word s hw, advance_setAcc]
  · intro hc
    rw [commitAcc_of_invalid s hc.symm, raise_eq]

/-- Settles O14: the word is the encoding of add, and its Execute is the commit of the sum. -/
theorem addIsExactOrFails : Obligations.AddIsExactOrFails := by
  unfold Obligations.AddIsExactOrFails
  intro a ha
  constructor
  · intro p
    exact decodeWith_of_encode_eq p ha (encode_add a)
  · intro s
    rw [exec_add ha]
    exact commitAcc_exact_or_invalidWord _ s

/-- Settles O15: Execute is the commit of the difference, ACC the left operand and the cell the right one. -/
theorem subtractIsExactOrFails : Obligations.SubtractIsExactOrFails := by
  unfold Obligations.SubtractIsExactOrFails
  intro a ha
  constructor
  · intro p
    exact decodeWith_of_encode_eq p ha (encode_subtract a)
  · intro s
    rw [exec_subtract ha]
    exact commitAcc_exact_or_invalidWord _ s

/-- Settles O16: Execute is the commit of the product; a magnitude above 9999 is one of the validator's two sides. -/
theorem multiplyIsExactOrFails : Obligations.MultiplyIsExactOrFails := by
  unfold Obligations.MultiplyIsExactOrFails
  intro a ha
  constructor
  · intro p
    exact decodeWith_of_encode_eq p ha (encode_multiply a)
  · intro s
    rw [exec_multiply ha]
    obtain ⟨exact_product, invalid⟩ := commitAcc_exact_or_invalidWord (s.acc.val * (memRead s a).val) s
    exact ⟨exact_product, fun h => invalid (by omega)⟩

/-! ### Division -/

theorem natAbs_tdiv_le (a b : Int) : (tdiv a b).natAbs ≤ a.natAbs := by
  rw [natAbs_tdiv]
  exact Nat.div_le_self _ _

/-- R126: the quotient is no larger in magnitude than the dividend, and that is a Word. -/
theorem tdiv_inWordRange (a : Word) (b : Int) : InWordRange (tdiv a.val b) := by
  have hle : (tdiv a.val b).natAbs ≤ a.val.natAbs := natAbs_tdiv_le a.val b
  have hlower := a.lower
  have hupper := a.upper
  constructor <;> omega

/-- R124: the divisor 0 is refused whatever ACC is, and nothing but STATUS is written. -/
theorem exec_divide_of_zero {a : Nat} {s : State} (ha : a < 100) (hm : (memRead s a).val = 0) :
    exec (.divide a) s = .next { s with status := .failed .divisionByZero } := by
  rw [exec_divide ha, if_pos hm, raise_eq]

/-- R124, R126: with any other divisor the quotient is a Word and is committed. -/
theorem exec_divide_of_ne_zero {a : Nat} {s : State} (ha : a < 100) (hm : (memRead s a).val ≠ 0) :
    ∃ w : Word, w.val = tdiv s.acc.val (memRead s a).val ∧
      exec (.divide a) s = .next { s with acc := w, ic := s.ic + 1 } := by
  obtain ⟨w, hw⟩ : ∃ w : Word, w.val = tdiv s.acc.val (memRead s a).val := ⟨⟨_, tdiv_inWordRange s.acc _⟩, rfl⟩
  refine ⟨w, hw, ?_⟩
  rw [exec_divide ha, if_neg hm, commitAcc_of_word s hw, advance_setAcc]

/-- Settles O17: Execute by the divisor, 0 or not; the model's quotient is the library's truncating one. -/
theorem divideTruncatesOrFailsOnZero : Obligations.DivideTruncatesOrFailsOnZero := by
  unfold Obligations.DivideTruncatesOrFailsOnZero
  intro a ha
  constructor
  · intro p
    exact decodeWith_of_encode_eq p ha (encode_divide a)
  · intro s
    refine ⟨exec_divide_of_zero ha, fun hm => ?_⟩
    rw [← tdiv_eq_tdiv]
    exact exec_divide_of_ne_zero ha hm

/-- R126: a divide that completes in a running state has failed on a zero divisor, or the run goes on. -/
theorem exec_divide_status {a : Nat} {s t : State} (hr : s.status = .run) (h : exec (.divide a) s = .next t) :
    (t.status = .failed .divisionByZero ∧ (memRead s a).val = 0) ∨ t.status = .run := by
  have ha : a < 100 := operand_lt_of_exec_divide h
  by_cases hm : (memRead s a).val = 0
  · rw [exec_divide_of_zero ha hm] at h
    obtain rfl := Host.Outcome.next.inj h
    exact .inl ⟨rfl, hm⟩
  · obtain ⟨w, -, hw⟩ := exec_divide_of_ne_zero ha hm
    rw [hw] at h
    obtain rfl := Host.Outcome.next.inj h
    exact .inr hr

/-- Settles O3: the magnitude of the quotient, and the two states a divide can end in. -/
theorem divideQuotientIsAlwaysAWord : Obligations.DivideQuotientIsAlwaysAWord := by
  unfold Obligations.DivideQuotientIsAlwaysAWord
  constructor
  · intro a m _
    exact ⟨natAbs_tdiv a.val m.val, natAbs_tdiv_le a.val m.val, (isValid_iff _).mpr (tdiv_inWordRange a m.val)⟩
  · intro a s t hr h
    rcases exec_divide_status hr h with ⟨ht, hm⟩ | ht
    · exact ⟨by simp [ht], fun _ => hm⟩
    · exact ⟨by simp [ht], by simp [ht]⟩

/-- R8: a dividend that is not negative is divided as the library's `/` divides it, whatever the divisor's sign. -/
theorem tdiv_of_nonneg {a : Int} (ha : 0 ≤ a) (b : Int) : tdiv a b = a / b := by
  rw [tdiv_eq_tdiv, Int.tdiv_eq_ediv_of_nonneg ha]

/-- R8: the quotient of a negative dividend is that of its magnitude, with the other sign. -/
theorem tdiv_of_neg {a : Int} (ha : a < 0) (b : Int) : tdiv a b = -(-a / b) := by
  have hpos : tdiv (-a) b = -a / b := tdiv_of_nonneg (by omega) b
  rw [← hpos, tdiv_eq_tdiv, tdiv_eq_tdiv, Int.neg_tdiv, neg_neg]

/-- 44_control.md R131: 0 is not negative, so branchNeg advances. -/
theorem exec_branchNeg_of_nonneg {b : Nat} {s : State} (hb : b < 100) (h : 0 ≤ s.acc.val) :
    exec (.branchNeg b) s = .next (advance s) := by
  have hc : accNegative s = false := by simpa [accNegative] using h
  calc exec (.branchNeg b) s = .next (if accNegative s then branchTo b s else advance s) := atAddress_of_lt _ hb
    _ = .next (advance s) := by simp [hc]

/-- 44_control.md R132: branchZero is taken on 0. -/
theorem exec_branchZero_of_zero {b : Nat} {s : State} (hb : b < 100) (h : s.acc.val = 0) :
    exec (.branchZero b) s = .next (branchTo b s) := by
  have hc : accZero s = true := by simpa [accZero] using h
  calc exec (.branchZero b) s = .next (if accZero s then branchTo b s else advance s) := atAddress_of_lt _ hb
    _ = .next (branchTo b s) := by simp [hc]

/-- R127: a quotient 0 is committed as the one zero. -/
theorem exec_divide_of_quotient_zero {a : Nat} {s : State} (ha : a < 100) (hm : (memRead s a).val ≠ 0)
    (hq : tdiv s.acc.val (memRead s a).val = 0) :
    exec (.divide a) s = .next { s with acc := Word.zero, ic := s.ic + 1 } := by
  obtain ⟨w, hw, he⟩ := exec_divide_of_ne_zero ha hm
  have hzero : w = Word.zero := Word.val_injective (hw.trans hq)
  rw [he, hzero]

/-- Settles O4: the quotient by the sign of the dividend, where a negative divisor turns the sign of `/` once more; the
zero divisor; and the two branches on the one zero, which is `Word.zero` whatever sign the dividend had. -/
theorem divisionAtEverySignAndAtZero : Obligations.DivisionAtEverySignAndAtZero := by
  unfold Obligations.DivisionAtEverySignAndAtZero
  refine ⟨fun a m => ⟨?_, ?_, ?_, ?_, ?_⟩, fun _ _ => exec_divide_of_zero, ?_⟩
  · intro ha _
    exact tdiv_of_nonneg ha m
  · intro ha _
    exact tdiv_of_neg ha m
  · intro ha _
    rw [tdiv_of_nonneg ha, Int.ediv_neg, neg_neg]
  · intro ha _
    rw [tdiv_of_neg ha, Int.ediv_neg]
  · intro _
    exact ⟨(tdiv_mul_add_trem a m).symm, trem_eq_zero_or_sign_eq a m⟩
  · intro a b s ha hb _ hm hq
    exact ⟨_, exec_divide_of_quotient_zero ha hm hq, rfl, exec_branchNeg_of_nonneg hb le_rfl,
      exec_branchZero_of_zero hb rfl⟩

end Sys2Proof.Machine
end

section
/-! PROOFS. The statements of the family 44_control.md (R130 to R133): the words of the three branches and of halt, what
their Executes do, and the step that halts. -/

namespace Sys2Proof.Machine

/-! ### The words of 30_encoding.md R64 -/

theorem encode_branch (a : Nat) : encode (.branch a) = 4000 + (a : Int) := by
  simp [encode, Instr.code, Instr.operand]

theorem encode_branchNeg (a : Nat) : encode (.branchNeg a) = 4100 + (a : Int) := by
  simp [encode, Instr.code, Instr.operand]

theorem encode_branchZero (a : Nat) : encode (.branchZero a) = 4200 + (a : Int) := by
  simp [encode, Instr.code, Instr.operand]

theorem encode_halt (a : Nat) : encode (.halt a) = 4300 + (a : Int) := by
  simp [encode, Instr.code, Instr.operand]

/-! ### The two moves of the counter, and the halt -/

theorem branchTo_eq (a : Nat) (s : State) : branchTo a s = { s with ic := a } := rfl

theorem advance_eq (s : State) : advance s = { s with ic := s.ic + 1 } := rfl

theorem haltRun_eq (s : State) : haltRun s = { s with status := .halted } := rfl

/-! ### Execute -/

/-- R130: the branch is taken whatever ACC holds. -/
theorem exec_branch {a : Nat} (ha : a < 100) (s : State) : exec (.branch a) s = .next (branchTo a s) :=
  atAddress_of_lt _ ha

/-- R131: branchNeg is taken on a negative ACC; the other side is `exec_branchNeg_of_nonneg`. -/
theorem exec_branchNeg_of_neg {a : Nat} {s : State} (ha : a < 100) (h : s.acc.val < 0) :
    exec (.branchNeg a) s = .next (branchTo a s) := by
  have hc : accNegative s = true := by simpa [accNegative] using h
  calc exec (.branchNeg a) s = .next (if accNegative s then branchTo a s else advance s) := atAddress_of_lt _ ha
    _ = .next (branchTo a s) := by simp [hc]

/-- R132: branchZero is not taken on any other ACC; the taken side is `exec_branchZero_of_zero`. -/
theorem exec_branchZero_of_ne_zero {a : Nat} {s : State} (ha : a < 100) (h : s.acc.val ≠ 0) :
    exec (.branchZero a) s = .next (advance s) := by
  have hc : accZero s = false := by simpa [accZero] using h
  calc exec (.branchZero a) s = .next (if accZero s then branchTo a s else advance s) := atAddress_of_lt _ ha
    _ = .next (advance s) := by simp [hc]

/-- R133: the step that decodes a halt is its Execute on the state with IR loaded and OPC and OPD latched. -/
theorem step_of_decode_halt {a : Nat} {s : State} (hr : s.status = .run) (hc : s.ic < 100)
    (hd : decode (memRead s s.ic).val = .ok (.halt a)) :
    step s = .next (haltRun (latchDecoded (.halt a) (loadIr s))) := by
  calc step s = exec (.halt a) (latchDecoded (.halt a) (loadIr s)) := stepWith_decoded hr hc hd
    _ = .next (haltRun (latchDecoded (.halt a) (loadIr s))) := exec_halt (wellFormed_of_decodeWith hd) _

theorem haltRun_latchDecoded_loadIr (a : Nat) (s : State) :
    haltRun (latchDecoded (.halt a) (loadIr s)) =
      { s with ir := memRead s s.ic, opc := 43, opd := a, status := .halted } := rfl

/-! ### The statements -/

/-- Settles O18: the word is the encoding of branch, and its Execute writes IC and no other field. -/
theorem branchSetsTheCounter : Obligations.BranchSetsTheCounter := by
  unfold Obligations.BranchSetsTheCounter
  intro a ha
  constructor
  · intro p
    exact decodeWith_of_encode_eq p ha (encode_branch a)
  · intro s
    rw [exec_branch ha, branchTo_eq]

/-- Settles O19: Execute on the two sides of `ACC < 0`. -/
theorem branchNegTestsTheSign : Obligations.BranchNegTestsTheSign := by
  unfold Obligations.BranchNegTestsTheSign
  intro a ha
  constructor
  · intro p
    exact decodeWith_of_encode_eq p ha (encode_branchNeg a)
  · intro s
    constructor
    · intro hneg
      rw [exec_branchNeg_of_neg ha hneg, branchTo_eq]
    · intro hnonneg
      rw [exec_branchNeg_of_nonneg ha hnonneg, advance_eq]

/-- Settles O20: Execute on the two sides of `ACC = 0`. -/
theorem branchZeroTestsForZero : Obligations.BranchZeroTestsForZero := by
  unfold Obligations.BranchZeroTestsForZero
  intro a ha
  constructor
  · intro p
    exact decodeWith_of_encode_eq p ha (encode_branchZero a)
  · intro s
    constructor
    · intro hzero
      rw [exec_branchZero_of_zero ha hzero, branchTo_eq]
    · intro hne
      rw [exec_branchZero_of_ne_zero ha hne, advance_eq]

/-- Settles O21: Execute writes STATUS and no other field; a halted state has no step; and the step that fetches the word
adds to Execute's one write only those of Fetch and Decode. -/
theorem haltEndsTheRun : Obligations.HaltEndsTheRun := by
  unfold Obligations.HaltEndsTheRun
  intro a ha
  have decodes (p : DecodePriority) : decodeWith p (4300 + (a : Int)) = .ok (.halt a) :=
    decodeWith_of_encode_eq p ha (encode_halt a)
  refine ⟨decodes, fun s => ⟨?_, step_of_halted rfl, ?_⟩⟩
  · rw [exec_halt ha, haltRun_eq]
  · intro hr hc hw
    have hd : decode (memRead s s.ic).val = .ok (.halt a) := by
      rw [hw]
      exact decodes _
    rw [step_of_decode_halt hr hc hd, haltRun_latchDecoded_loadIr]

end Sys2Proof.Machine
end

section
/-! PROOFS. Everything that Execute can do (40_instruction_cycle.md R87), said once as a relation between the state before
it and the state after it; and the statements read off from it: totality and the latches, the operand that is no address
(20_memory.md R45), and read (41_io.md R100). -/

namespace Sys2Proof.Machine

/-! ### Execute as a relation -/

/-- What Execute of an instruction makes of a state, one constructor per form of its rule (41_io.md to 44_control.md). -/
inductive Executes : Instr → State → State → Prop
  | readExhausted {a : Nat} {s : State} (h : nextInput s = none) :
      Executes (.read a) s { s with status := .failed .inputExhausted }
  | readInvalid {a : Nat} {s : State} {v : Int} (h : nextInput s = some v) (hv : ¬ InWordRange v) :
      Executes (.read a) s { inPop s with status := .failed .invalidWord }
  | readWord {a : Nat} {s : State} {w : Word} (h : nextInput s = some w.val) :
      Executes (.read a) s (advance (memWrite a w (inPop s)))
  | write {a : Nat} {s : State} : Executes (.write a) s (advance (emit a (memRead s a) s))
  | load {a : Nat} {s : State} : Executes (.load a) s (advance (setAcc (memRead s a) s))
  | store {a : Nat} {s : State} : Executes (.store a) s (advance (memWrite a s.acc s))
  | add {a : Nat} {s : State} {w : Word} (h : w.val = s.acc.val + (memRead s a).val) :
      Executes (.add a) s (advance (setAcc w s))
  | addInvalid {a : Nat} {s : State} (h : ¬ InWordRange (s.acc.val + (memRead s a).val)) :
      Executes (.add a) s { s with status := .failed .invalidWord }
  | subtract {a : Nat} {s : State} {w : Word} (h : w.val = s.acc.val - (memRead s a).val) :
      Executes (.subtract a) s (advance (setAcc w s))
  | subtractInvalid {a : Nat} {s : State} (h : ¬ InWordRange (s.acc.val - (memRead s a).val)) :
      Executes (.subtract a) s { s with status := .failed .invalidWord }
  | multiply {a : Nat} {s : State} {w : Word} (h : w.val = s.acc.val * (memRead s a).val) :
      Executes (.multiply a) s (advance (setAcc w s))
  | multiplyInvalid {a : Nat} {s : State} (h : ¬ InWordRange (s.acc.val * (memRead s a).val)) :
      Executes (.multiply a) s { s with status := .failed .invalidWord }
  | divide {a : Nat} {s : State} {w : Word} (hm : (memRead s a).val ≠ 0) (h : w.val = tdiv s.acc.val (memRead s a).val) :
      Executes (.divide a) s (advance (setAcc w s))
  | divideByZero {a : Nat} {s : State} (hm : (memRead s a).val = 0) :
      Executes (.divide a) s { s with status := .failed .divisionByZero }
  | branch {a : Nat} {s : State} : Executes (.branch a) s (branchTo a s)
  | branchNegTaken {a : Nat} {s : State} (h : s.acc.val < 0) : Executes (.branchNeg a) s (branchTo a s)
  | branchNegNot {a : Nat} {s : State} (h : 0 ≤ s.acc.val) : Executes (.branchNeg a) s (advance s)
  | branchZeroTaken {a : Nat} {s : State} (h : s.acc.val = 0) : Executes (.branchZero a) s (branchTo a s)
  | branchZeroNot {a : Nat} {s : State} (h : s.acc.val ≠ 0) : Executes (.branchZero a) s (advance s)
  | halt {a : Nat} {s : State} : Executes (.halt a) s (haltRun s)

theorem not_inWordRange_iff {v : Int} : ¬ InWordRange v ↔ v < -9999 ∨ 9999 < v := by
  rw [InWordRange, not_and_or, not_le, not_le]

/-- A candidate is a Word or it is out of the range (40_instruction_cycle.md R80). -/
theorem word_or_not_inWordRange (v : Int) : (∃ w : Word, w.val = v) ∨ ¬ InWordRange v := by
  by_cases h : InWordRange v
  · exact .inl ⟨⟨v, h⟩, rfl⟩
  · exact .inr h

theorem commitAcc_of_not_inWordRange {c : Int} (s : State) (h : ¬ InWordRange c) : commitAcc c s = raise .invalidWord s :=
  commitAcc_of_invalid s (not_inWordRange_iff.mp h)

/-! ### read, the three forms of R100 -/

theorem exec_read_of_exhausted {a : Nat} {s : State} (ha : a < 100) (h : nextInput s = none) :
    exec (.read a) s = raise .inputExhausted s := by
  rw [exec, execRead, atAddress_of_lt _ ha, h]

theorem exec_read_of_not_inWordRange {a : Nat} {s : State} {v : Int} (ha : a < 100) (h : nextInput s = some v)
    (hv : ¬ InWordRange v) : exec (.read a) s = raise .invalidWord (inPop s) := by
  simp only [exec, execRead, atAddress_of_lt _ ha, h, validate_eq_none_iff.mpr (not_inWordRange_iff.mp hv)]

theorem exec_read_of_word {a : Nat} {s : State} {w : Word} (ha : a < 100) (h : nextInput s = some w.val) :
    exec (.read a) s = .next (advance (memWrite a w (inPop s))) := by
  simp only [exec, execRead, atAddress_of_lt _ ha, h, validate_val]

/-! ### The relation is `exec` -/

/-- Every form of an instruction's rule is what `exec` answers on it. -/
theorem Executes.exec_eq {i : Instr} {s t : State} (h : Executes i s t) (hw : i.WellFormed) : exec i s = .next t := by
  cases h with
  | readExhausted h => exact exec_read_of_exhausted hw h
  | readInvalid h hv => exact exec_read_of_not_inWordRange hw h hv
  | readWord h => exact exec_read_of_word hw h
  | write => exact exec_write hw s
  | load => exact exec_load hw s
  | store => exact exec_store hw s
  | add h => exact (exec_add hw s).trans (commitAcc_of_word s h)
  | addInvalid h => exact (exec_add hw s).trans (commitAcc_of_not_inWordRange s h)
  | subtract h => exact (exec_subtract hw s).trans (commitAcc_of_word s h)
  | subtractInvalid h => exact (exec_subtract hw s).trans (commitAcc_of_not_inWordRange s h)
  | multiply h => exact (exec_multiply hw s).trans (commitAcc_of_word s h)
  | multiplyInvalid h => exact (exec_multiply hw s).trans (commitAcc_of_not_inWordRange s h)
  | divide hm h => exact (exec_divide hw s).trans ((if_neg hm).trans (commitAcc_of_word s h))
  | divideByZero hm => exact exec_divide_of_zero hw hm
  | branch => exact exec_branch hw s
  | branchNegTaken h => exact exec_branchNeg_of_neg hw h
  | branchNegNot h => exact exec_branchNeg_of_nonneg hw h
  | branchZeroTaken h => exact exec_branchZero_of_zero hw h
  | branchZeroNot h => exact exec_branchZero_of_ne_zero hw h
  | halt => exact exec_halt hw s

theorem exists_executes_read (a : Nat) (s : State) : ∃ t, Executes (.read a) s t := by
  cases h : nextInput s with
  | none => exact ⟨_, .readExhausted h⟩
  | some v =>
    rcases word_or_not_inWordRange v with ⟨w, rfl⟩ | hv
    · exact ⟨_, .readWord h⟩
    · exact ⟨_, .readInvalid h hv⟩

theorem exists_executes_divide (a : Nat) (s : State) : ∃ t, Executes (.divide a) s t := by
  by_cases hm : (memRead s a).val = 0
  · exact ⟨_, .divideByZero hm⟩
  · exact ⟨_, .divide (w := ⟨_, tdiv_inWordRange s.acc _⟩) hm rfl⟩

/-- The forms of each rule leave no state out. -/
theorem exists_executes (i : Instr) (s : State) : ∃ t, Executes i s t := by
  cases i with
  | read a => exact exists_executes_read a s
  | write a => exact ⟨_, .write⟩
  | load a => exact ⟨_, .load⟩
  | store a => exact ⟨_, .store⟩
  | add a =>
    rcases word_or_not_inWordRange (s.acc.val + (memRead s a).val) with ⟨w, h⟩ | h
    exacts [⟨_, .add h⟩, ⟨_, .addInvalid h⟩]
  | subtract a =>
    rcases word_or_not_inWordRange (s.acc.val - (memRead s a).val) with ⟨w, h⟩ | h
    exacts [⟨_, .subtract h⟩, ⟨_, .subtractInvalid h⟩]
  | multiply a =>
    rcases word_or_not_inWordRange (s.acc.val * (memRead s a).val) with ⟨w, h⟩ | h
    exacts [⟨_, .multiply h⟩, ⟨_, .multiplyInvalid h⟩]
  | divide a => exact exists_executes_divide a s
  | branch a => exact ⟨_, .branch⟩
  | branchNeg a =>
    rcases lt_or_ge s.acc.val 0 with h | h
    exacts [⟨_, .branchNegTaken h⟩, ⟨_, .branchNegNot h⟩]
  | branchZero a =>
    rcases eq_or_ne s.acc.val 0 with h | h
    exacts [⟨_, .branchZeroTaken h⟩, ⟨_, .branchZeroNot h⟩]
  | halt a => exact ⟨_, .halt⟩

/-- 20_memory.md R45: every instruction tests its operand, and does so first. -/
theorem exec_of_not_wellFormed {i : Instr} (hw : ¬ i.WellFormed) (s : State) :
    exec i s = .fault (.noSuchAddress i.operand) := by
  have hout : 100 ≤ i.operand := not_lt.mp hw
  cases i <;> exact atAddress_of_le _ hout

theorem wellFormed_of_exec_next {i : Instr} {s t : State} (h : exec i s = .next t) : i.WellFormed := by
  by_contra hw
  simp [exec_of_not_wellFormed hw] at h

theorem executes_of_exec {i : Instr} {s t : State} (h : exec i s = .next t) : Executes i s t := by
  obtain ⟨u, hu⟩ := exists_executes i s
  obtain rfl : u = t := Host.Outcome.next.inj ((hu.exec_eq (wellFormed_of_exec_next h)).symm.trans h)
  exact hu

/-! ### What no form writes -/

theorem Executes.ir_eq {i : Instr} {s t : State} (h : Executes i s t) : t.ir = s.ir := by cases h <;> rfl

theorem Executes.opc_eq {i : Instr} {s t : State} (h : Executes i s t) : t.opc = s.opc := by cases h <;> rfl

theorem Executes.opd_eq {i : Instr} {s t : State} (h : Executes i s t) : t.opd = s.opd := by cases h <;> rfl

theorem Executes.inputs_eq {i : Instr} {s t : State} (h : Executes i s t) : t.inputs = s.inputs := by cases h <;> rfl

/-! ### The cursor and the inputs -/

theorem nextInput_eq_none_iff {s : State} : nextInput s = none ↔ s.inputs.length ≤ s.incur :=
  List.getElem?_eq_none_iff

theorem nextInput_eq_some_iff {s : State} {v : Int} :
    nextInput s = some v ↔ ∃ h : s.incur < s.inputs.length, s.inputs[s.incur] = v :=
  List.getElem?_eq_some_iff

/-! ### The statements -/

/-- Settles O22: the test of the operand comes before everything else that an instruction does. -/
theorem illFormedInstructionStops : Obligations.IllFormedInstructionStops := by
  unfold Obligations.IllFormedInstructionStops
  exact fun i s hw => exec_of_not_wellFormed hw s

/-- Settles O23: some form of the instruction's rule applies, and none writes the latches or the inputs. -/
theorem executeAlwaysCompletesAndKeepsLatches : Obligations.ExecuteAlwaysCompletesAndKeepsLatches := by
  unfold Obligations.ExecuteAlwaysCompletesAndKeepsLatches
  intro i s hw
  obtain ⟨t, h⟩ := exists_executes i s
  exact ⟨t, h.exec_eq hw, h.ir_eq, h.opc_eq, h.opd_eq, h.inputs_eq⟩

/-- R64: the row of read. -/
theorem encode_read (a : Nat) : encode (.read a) = 1000 + (a : Int) := by
  simp [encode, Instr.code, Instr.operand]

theorem advance_memWrite_inPop (a : Nat) (w : Word) (s : State) :
    advance (memWrite a w (inPop s)) =
      { s with mem := Memory.write s.mem a w, incur := s.incur + 1, ic := s.ic + 1 } := rfl

/-- Settles O10: the word is the encoding of read, and its Execute has the three forms of R100; the write replaces the
operand's cell alone (`Memory.read_write`). -/
theorem readConsumesValidatesAndStores : Obligations.ReadConsumesValidatesAndStores := by
  unfold Obligations.ReadConsumesValidatesAndStores
  intro a ha
  refine ⟨fun p => decodeWith_of_encode_eq p ha (encode_read a), fun s => ⟨fun hlen => ?_, fun h => ⟨fun hv => ?_, ?_⟩⟩⟩
  · rw [exec_read_of_exhausted ha (nextInput_eq_none_iff.mpr hlen), raise_eq]
  · rw [exec_read_of_not_inWordRange ha (nextInput_eq_some_iff.mpr ⟨h, rfl⟩) hv, raise_eq]
    rfl
  · intro w hw
    refine ⟨Memory.write s.mem a w, ?_, fun b => Memory.read_write s.mem a b w⟩
    rw [exec_read_of_word ha (nextInput_eq_some_iff.mpr ⟨h, hw.symm⟩), advance_memWrite_inPop]

end Sys2Proof.Machine
end

section
/-! PROOFS. The invariant of 10_state.md R33, operation by operation, then for Execute and for the step. -/

namespace Sys2Proof.Machine

/-! ### Each operation keeps the invariant -/

theorem State.Inv.advance {s : State} (h : s.Inv) (hc : s.ic < 100) : (advance s).Inv := { h with counter := hc }

theorem State.Inv.setAcc {s : State} (h : s.Inv) (v : Word) : (setAcc v s).Inv := { h with }

theorem State.Inv.branchTo {s : State} {a : Nat} (h : s.Inv) (ha : a < 100) : (branchTo a s).Inv :=
  { h with counter := Nat.le_of_lt ha }

theorem State.Inv.memWrite {s : State} {a : Nat} (h : s.Inv) (v : Word) (ha : a < 100) : (memWrite a v s).Inv :=
  { h with memory := memWrite_memory_wf v h.memory ha }

theorem State.Inv.inPop {s : State} {v : Int} (h : s.Inv) (hv : nextInput s = some v) : (inPop s).Inv :=
  { h with cursor := (nextInput_eq_some_iff.mp hv).1 }

theorem State.Inv.emit {s : State} {a : Nat} (h : s.Inv) (v : Word) (ha : a < 100) : (emit a v s).Inv :=
  { h with
    emitted := fun c hc => by
      rcases List.mem_append.mp hc with hc | hc
      · exact h.emitted c hc
      · obtain rfl := List.mem_singleton.mp hc
        exact Nat.le_of_lt_succ ha }

theorem State.Inv.haltRun {s : State} (h : s.Inv) (hr : s.status = .run) : (haltRun s).Inv :=
  { h with
    loader := by simp
    decoded := fun _ => h.decoded (by simp [hr]) }

/-- R26: of a failed state the invariant no longer says that OPC and OPD are the fields of IR. -/
theorem State.Inv.failed {s : State} {k : ErrorKind} (h : s.Inv) (w : Word) (hk : k ≠ .loadFailure) :
    ({ s with ir := w, status := .failed k } : State).Inv :=
  { h with
    loader := by simpa using hk
    decoded := fun hne => absurd rfl (hne k) }

/-- R25, R26: a Decode that succeeds latches the two fields of the word in IR. -/
theorem State.Inv.latchDecoded {s : State} {p : DecodePriority} {i : Instr} (h : s.Inv)
    (hd : decodeWith p (memRead s s.ic).val = .ok i) : (latchDecoded i (loadIr s)).Inv := by
  obtain ⟨hcode, hoperand, hlt⟩ := decodeWith_ok_fields hd
  exact { h with
    opcode := .inr i.code_mem_opcodes
    operand := Nat.le_of_lt_succ hlt
    decoded := fun _ => ⟨hcode.symm, hoperand.symm⟩ }

/-! ### Execute and the step -/

/-- Every form of Execute is a chain of the operations above. -/
theorem Executes.inv {i : Instr} {s t : State} (h : Executes i s t) (hs : s.Inv) (hw : i.WellFormed)
    (hr : s.status = .run) (hc : s.ic < 100) : t.Inv := by
  cases h with
  | readExhausted _ => exact hs.failed s.ir (by decide)
  | readInvalid hv _ => exact (hs.inPop hv).failed s.ir (by decide)
  | readWord hv => exact ((hs.inPop hv).memWrite _ hw).advance hc
  | write => exact (hs.emit _ hw).advance hc
  | load => exact (hs.setAcc _).advance hc
  | store => exact (hs.memWrite _ hw).advance hc
  | add _ => exact (hs.setAcc _).advance hc
  | addInvalid _ => exact hs.failed s.ir (by decide)
  | subtract _ => exact (hs.setAcc _).advance hc
  | subtractInvalid _ => exact hs.failed s.ir (by decide)
  | multiply _ => exact (hs.setAcc _).advance hc
  | multiplyInvalid _ => exact hs.failed s.ir (by decide)
  | divide _ _ => exact (hs.setAcc _).advance hc
  | divideByZero _ => exact hs.failed s.ir (by decide)
  | branch => exact hs.branchTo hw
  | branchNegTaken _ => exact hs.branchTo hw
  | branchNegNot _ => exact hs.advance hc
  | branchZeroTaken _ => exact hs.branchTo hw
  | branchZeroNot _ => exact hs.advance hc
  | halt => exact hs.haltRun hr

/-- Decode raises neither LoadFailure nor any other kind that is not its own (60_exceptions.md R162). -/
theorem decodeWith_err_ne_loadFailure {p : DecodePriority} {w : Int} {k : ErrorKind} (h : decodeWith p w = .err k) :
    k ≠ .loadFailure := by
  rcases decodeWith_err_kind h with rfl | rfl <;> decide

/-- R33 for either priority: Fetch and Decode fail, or Execute starts from the latched state. -/
theorem State.Inv.stepWith {p : DecodePriority} {s t : State} (h : s.Inv) (hstep : stepWith p s = .next t) : t.Inv := by
  have hr : s.status = .run := running_of_stepWith_next hstep
  rcases stepWith_cases hstep with ⟨-, rfl⟩ | ⟨-, k, hd, rfl⟩ | ⟨hc, i, hd, he⟩
  · exact h.failed s.ir (by decide)
  · exact h.failed _ (decodeWith_err_ne_loadFailure hd)
  · exact (executes_of_exec he).inv (h.latchDecoded hd) (wellFormed_of_decodeWith hd) hr hc

/-- Settles O39: the invariant for the default priority. -/
theorem stepKeepsTheInvariant : Obligations.StepKeepsTheInvariant := by
  unfold Obligations.StepKeepsTheInvariant
  exact fun _ _ h hstep => h.stepWith hstep

/-- R35: the values of the start are in the ranges of R33; the fields of the word 0 in IR are 0 and 0. -/
theorem start_inv {image : Memory} (inputs : List Int) (h : Memory.wf image = true) : (State.start image inputs).Inv where
  memory := h
  counter := Nat.zero_le _
  opcode := .inl rfl
  operand := Nat.zero_le _
  cursor := Nat.zero_le _
  emitted := fun _ hc => absurd hc List.not_mem_nil
  loader := by simp
  decoded := fun _ => (by decide : (0 : Int) = tdiv 0 100 ∧ (0 : Int) = trem 0 100)

/-- Settles O40: `State.reset` is the start with the image of zeros and no inputs. -/
theorem startOfARunMeetsTheInvariant : Obligations.StartOfARunMeetsTheInvariant := by
  unfold Obligations.StartOfARunMeetsTheInvariant
  exact ⟨fun _ inputs h => start_inv inputs h, start_inv [] reset_memory_wf⟩

end Sys2Proof.Machine
end

section
/-! PROOFS. The statements about the decoder (30_encoding.md R64 to R68, R72): what it makes of every integer by the two
conditions of 40_instruction_cycle.md R85, the decoder of the opcode table, and the table's spelling of words. -/

namespace Sys2Proof.Machine

/-! ### Quotient and remainder by 100 -/

theorem trem_hundred_bounds (w : Int) : -99 ≤ trem w 100 ∧ trem w 100 ≤ 99 := by
  have h : (trem w 100).natAbs < 100 := natAbs_trem_lt w (by decide)
  omega

/-- R85: the operand condition, of whose two halves only the negative one is ever met. -/
theorem operandOut_trem {w : Int} : operandOut (trem w 100) = true ↔ trem w 100 < 0 := by
  have h := (trem_hundred_bounds w).2
  rw [operandOut_eq_true, or_iff_left (not_lt.mpr h)]

/-- R62: the remainder is negative for the negative words that are no multiples of 100. -/
theorem trem_hundred_neg_iff {w : Int} : trem w 100 < 0 ↔ w < 0 ∧ ¬ (100 : Int) ∣ w := by
  rw [trem_eq_tmod, ← Int.sign_eq_neg_one_iff_neg, Int.sign_tmod]
  split_ifs with hdvd <;> simp [hdvd, Int.sign_eq_neg_one_iff_neg]

theorem ten_le_of_mem_opcodes : ∀ c ∈ opcodes, 10 ≤ c := by decide

/-- R67: a negative word has no code's quotient. -/
theorem tdiv_hundred_ne_code_of_neg {w : Int} (h : w < 0) : ∀ c ∈ opcodes, tdiv w 100 ≠ (c : Int) := by
  intro c hc
  have hten := ten_le_of_mem_opcodes c hc
  have hsum := tdiv_mul_add_trem w 100
  have hbound := trem_hundred_bounds w
  omega

/-! ### The closed map of the codes -/

theorem operationOf_isSome : ∀ c ∈ opcodes, ∀ a : Nat, (operationOf c a).isSome = true := by
  simp [opcodes, operationOf]

/-- R64: every code selects an instruction, and it has that code and the operand given. -/
theorem exists_operationOf {c : Nat} (hc : c ∈ opcodes) (a : Nat) :
    ∃ i : Instr, operationOf c a = some i ∧ i.code = c ∧ i.operand = a := by
  obtain ⟨i, hi⟩ := Option.isSome_iff_exists.mp (operationOf_isSome c hc a)
  obtain ⟨hcode, hoperand⟩ := operationOf_eq_some hi
  exact ⟨i, hi, Int.ofNat.inj hcode.symm, hoperand⟩

/-- R86: the map is closed: it answers none outside the twelve codes. -/
theorem operationOf_eq_none {q : Int} {a : Nat} (h : ∀ c ∈ opcodes, q ≠ (c : Int)) : operationOf q a = none := by
  by_contra hne
  obtain ⟨i, hi⟩ := Option.ne_none_iff_exists'.mp hne
  exact h i.code i.code_mem_opcodes (operationOf_eq_some hi).1

/-! ### The decoder by its two conditions -/

theorem decodeWith_operandFirst_of_trem_neg {w : Int} (h : trem w 100 < 0) :
    decodeWith .operandFirst w = .err .operandOutOfRange := by
  have hunknown := tdiv_hundred_ne_code_of_neg (trem_hundred_neg_iff.mp h).1
  simp only [decodeWith, operandOut_trem.mpr h, operationOf_eq_none hunknown]

theorem decodeWith_opcodeFirst_of_trem_neg {w : Int} (h : trem w 100 < 0) :
    decodeWith .opcodeFirst w = .err .unknownOperation := by
  have hunknown := tdiv_hundred_ne_code_of_neg (trem_hundred_neg_iff.mp h).1
  simp only [decodeWith, operandOut_trem.mpr h, operationOf_eq_none hunknown]

theorem decodeWith_of_unknown {p : DecodePriority} {w : Int} (h : ¬ trem w 100 < 0)
    (hunknown : ∀ c ∈ opcodes, tdiv w 100 ≠ (c : Int)) : decodeWith p w = .err .unknownOperation := by
  have hout : operandOut (trem w 100) = false := Bool.eq_false_iff.mpr (mt operandOut_trem.mp h)
  simp only [decodeWith, hout, operationOf_eq_none hunknown]

theorem decodeWith_of_code {w : Int} {c : Nat} (h : ¬ trem w 100 < 0) (hc : c ∈ opcodes) (hq : tdiv w 100 = (c : Int)) :
    ∃ i : Instr, ∀ p, decodeWith p w = .ok i := by
  obtain ⟨i, hi, -, -⟩ := exists_operationOf hc (trem w 100).toNat
  refine ⟨i, fun p => decodeWith_eq_ok.mpr ⟨Bool.eq_false_iff.mpr (mt operandOut_trem.mp h), ?_⟩⟩
  rw [hq, hi]

/-- R85: the three things that Decode can make of an integer. -/
theorem decodeWith_cases (w : Int) :
    (trem w 100 < 0 ∧ decodeWith .operandFirst w = .err .operandOutOfRange ∧
        decodeWith .opcodeFirst w = .err .unknownOperation) ∨
      (¬ trem w 100 < 0 ∧ (∀ c ∈ opcodes, tdiv w 100 ≠ (c : Int)) ∧ ∀ p, decodeWith p w = .err .unknownOperation) ∨
      (¬ trem w 100 < 0 ∧ (∃ c ∈ opcodes, tdiv w 100 = (c : Int)) ∧ ∃ i : Instr, ∀ p, decodeWith p w = .ok i) := by
  by_cases h : trem w 100 < 0
  · exact .inl ⟨h, decodeWith_operandFirst_of_trem_neg h, decodeWith_opcodeFirst_of_trem_neg h⟩
  · by_cases hunknown : ∀ c ∈ opcodes, tdiv w 100 ≠ (c : Int)
    · exact .inr (.inl ⟨h, hunknown, fun p => decodeWith_of_unknown h hunknown⟩)
    · push Not at hunknown
      obtain ⟨c, hc, hq⟩ := hunknown
      exact .inr (.inr ⟨h, ⟨c, hc, hq⟩, decodeWith_of_code h hc hq⟩)

/-- R64: the ranges of the table, hundred words to a code. -/
theorem exists_code_iff_legal {w : Int} (h : 0 ≤ w) :
    (∃ c ∈ opcodes, tdiv w 100 = (c : Int)) ↔
      (1000 ≤ w ∧ w ≤ 1199) ∨ (2000 ≤ w ∧ w ≤ 2199) ∨ (3000 ≤ w ∧ w ≤ 3399) ∨ (4000 ≤ w ∧ w ≤ 4399) := by
  rw [tdiv_of_nonneg h]
  simp only [opcodes, List.mem_cons, List.not_mem_nil, or_false, exists_eq_or_imp, exists_eq_left]
  omega

/-- Settles O6: the quotient of a non-negative word is a code exactly in the table's ranges; the two kinds of a negative
word are told apart by its remainder. -/
theorem decodePartitionsAllWords : Obligations.DecodePartitionsAllWords := by
  unfold Obligations.DecodePartitionsAllWords
  intro w
  dsimp only
  refine ⟨fun hlegal => ?_, fun hnonneg hlegal p => ?_, fun hneg hdvd p => ?_, fun hneg hdvd => ?_⟩
  · have hnonneg : 0 ≤ w.val := by omega
    obtain ⟨c, hc, hq⟩ := (exists_code_iff_legal hnonneg).mpr hlegal
    obtain ⟨i, hi⟩ := decodeWith_of_code (fun h => not_lt.mpr hnonneg (trem_hundred_neg_iff.mp h).1) hc hq
    exact ⟨i, wellFormed_of_decodeWith (hi .operandFirst), (encode_of_decodeWith (hi .operandFirst)).symm, hi⟩
  · exact decodeWith_of_unknown (fun h => not_lt.mpr hnonneg (trem_hundred_neg_iff.mp h).1)
      fun c hc hq => hlegal ((exists_code_iff_legal hnonneg).mp ⟨c, hc, hq⟩)
  · exact decodeWith_of_unknown (fun h => (trem_hundred_neg_iff.mp h).2 hdvd) (tdiv_hundred_ne_code_of_neg hneg)
  · have h : trem w.val 100 < 0 := trem_hundred_neg_iff.mpr ⟨hneg, hdvd⟩
    exact ⟨decodeWith_operandFirst_of_trem_neg h, decodeWith_opcodeFirst_of_trem_neg h⟩

/-! ### The decoder of the opcode table -/

/-- R72: the test by which the table's decoder finds a row. -/
def rowHolds (w : Int) (row : TableRow) : Bool := decide (row.wordMin ≤ w) && decide (w ≤ row.wordMax)

theorem rowHolds_iff {row : TableRow} {w : Int} : rowHolds w row = true ↔ row.wordMin ≤ w ∧ w ≤ row.wordMax := by
  simp [rowHolds]

theorem tableDecode_of_nonneg {w : Int} (h : 0 ≤ w) :
    tableDecode w = (opcodeTable.find? (rowHolds w)).bind
      fun row => row.withOperand (w - row.wordMin).toNat := by
  rw [tableDecode, if_neg (not_lt.mpr h)]
  unfold rowHolds
  split
  next row h => rw [h, Option.bind_some]
  next h => rw [h, Option.bind_none]

/-- R72: each row is the hundred words of its code. -/
theorem opcodeTable_row : ∀ row ∈ opcodeTable,
    row.wordMin = (row.sample.code : Int) * 100 ∧ row.wordMax = row.wordMin + 99 ∧ row.sample.code ∈ opcodes := by
  decide

theorem exists_row_of_code (i : Instr) : ∃ row ∈ opcodeTable, row.sample.code = i.code := by
  cases i <;> simp [opcodeTable, Instr.code]

/-- A row that holds a word yields the instruction whose encoding the word is. -/
theorem withOperand_of_rowHolds {row : TableRow} {w : Int} (hrow : row ∈ opcodeTable) (h : rowHolds w row = true) :
    ∃ i : Instr, row.withOperand (w - row.wordMin).toNat = some i ∧ i.WellFormed ∧ encode i = w := by
  obtain ⟨hmin, hmax, hcode⟩ := opcodeTable_row row hrow
  obtain ⟨hlo, hhi⟩ := rowHolds_iff.mp h
  obtain ⟨i, hi, hic, hia⟩ := exists_operationOf hcode (w - row.wordMin).toNat
  refine ⟨i, hi, ?_, ?_⟩
  · rw [Instr.WellFormed, hia, Config.memSize_eq]
    omega
  · rw [encode, hic, hia]
    omega

/-- R72: the table's decoder finds a row, or there is none and the word is no instruction's. -/
theorem tableDecode_eq_some_iff {w : Int} {i : Instr} : tableDecode w = some i ↔ i.WellFormed ∧ encode i = w := by
  by_cases hneg : w < 0
  · have hne : encode i ≠ w := by
      rw [encode]
      omega
    simp [tableDecode, hneg, hne]
  rw [tableDecode_of_nonneg (not_lt.mp hneg)]
  cases hfind : opcodeTable.find? (rowHolds w) with
  | some row =>
    obtain ⟨j, hj, hjw, hje⟩ := withOperand_of_rowHolds (List.mem_of_find?_eq_some hfind) (List.find?_some hfind)
    rw [Option.bind_some, hj, Option.some_inj]
    constructor
    · rintro rfl
      exact ⟨hjw, hje⟩
    · rintro ⟨hiw, hie⟩
      have hsame : decode (encode j) = decode (encode i) := by rw [hje, hie]
      rwa [decode, decode, decodeWith_encode _ hjw, decodeWith_encode _ hiw, Decoded.ok.injEq] at hsame
  | none =>
    simp only [Option.bind_none, reduceCtorEq, false_iff]
    rintro ⟨hiw, rfl⟩
    obtain ⟨row, hrow, hcode⟩ := exists_row_of_code i
    obtain ⟨hmin, hmax, -⟩ := opcodeTable_row row hrow
    refine List.find?_eq_none.mp hfind row hrow (rowHolds_iff.mpr ?_)
    simp only [Instr.WellFormed, Config.memSize_eq] at hiw
    rw [hmin] at hmax ⊢
    rw [hmax, hcode, encode]
    omega

/-- Settles O7: both decoders yield the instruction whose encoding the word is, and no other. -/
theorem tableDecoderAgreesWithDecode : Obligations.TableDecoderAgreesWithDecode := by
  unfold Obligations.TableDecoderAgreesWithDecode
  intro p w i
  rw [tableDecode_eq_some_iff]
  exact ⟨fun h => ⟨wellFormed_of_decodeWith h, encode_of_decodeWith h⟩, fun ⟨hw, he⟩ => decodeWith_of_encode_eq p hw he⟩

/-- Settles O8: fixed words, computed. -/
theorem writtenOutWordsDecode : Obligations.WrittenOutWordsDecode := by
  unfold Obligations.WrittenOutWordsDecode
  decide

/-! ### The table's spelling of words -/

/-- R72: four decimal digits, spelled as four binary digits each, are the number they write. -/
theorem wordOfNotation_of_digits {d3 d2 d1 d0 : Nat} (h3 : d3 < 10) (h2 : d2 < 10) (h1 : d1 < 10) (h0 : d0 < 10) :
    wordOfNotation (d3 * 4096 + d2 * 256 + d1 * 16 + d0) = some ((1000 * d3 + 100 * d2 + 10 * d1 + d0 : Nat) : Int) := by
  have e3 : (d3 * 4096 + d2 * 256 + d1 * 16 + d0) / 4096 = d3 := by omega
  have e2 : (d3 * 4096 + d2 * 256 + d1 * 16 + d0) / 256 % 16 = d2 := by omega
  have e1 : (d3 * 4096 + d2 * 256 + d1 * 16 + d0) / 16 % 16 = d1 := by omega
  have e0 : (d3 * 4096 + d2 * 256 + d1 * 16 + d0) % 16 = d0 := by omega
  simp only [wordOfNotation, e3, e2, e1, e0]
  exact if_pos ⟨h3, h2, h1, h0⟩

/-- Log 11: a digit above 9 is refused. -/
theorem wordOfNotation_eq_none {w : Nat} (h : 9 < w / 4096 ∨ 9 < w / 256 % 16 ∨ 9 < w / 16 % 16 ∨ 9 < w % 16) :
    wordOfNotation w = none :=
  if_neg (by omega)

/-- A pattern is read as an instruction exactly if it writes a number and the number decodes. -/
theorem decodeTableWord_eq_some_iff {n w : Nat} {i : Instr} :
    decodeTableWord n w = some i ↔ ∃ v, wordOfNotation (w % 2 ^ n) = some v ∧ decode v = .ok i := by
  cases hv : wordOfNotation (w % 2 ^ n) with
  | none => simp [decodeTableWord, hv]
  | some v => cases hd : decode v <;> simp [decodeTableWord, hv, hd]

theorem code_lt_fifty (i : Instr) : i.code < 50 :=
  (by decide : ∀ c ∈ opcodes, c < 50) i.code i.code_mem_opcodes

/-- Settles O9: the digits of a well-formed instruction's pattern write its encoding; a pattern with another digit in it writes
no number. -/
theorem tableNotationReadsDecimalDigits : Obligations.TableNotationReadsDecimalDigits := by
  unfold Obligations.TableNotationReadsDecimalDigits
  constructor
  · intro i hw
    have hcode := code_lt_fifty i
    have hoperand : i.operand < 100 := hw
    refine decodeTableWord_eq_some_iff.mpr ⟨encode i, ?_, decodeWith_encode _ hw⟩
    rw [Nat.mod_eq_of_lt (by omega), wordOfNotation_of_digits (by omega) (by omega) (by omega) (by omega), encode]
    congr 1
    omega
  · intro w hw hdigit
    have hmod : w % 2 ^ 16 = w := Nat.mod_eq_of_lt hw
    rw [decodeTableWord, hmod, wordOfNotation_eq_none hdigit]

end Sys2Proof.Machine
end

section
/-! PROOFS. The statements about the cycle (40_instruction_cycle.md R82 to R85), the decode priority (92_eei_decisions.md
D3) and the start of a run (70_reset_and_hazards.md R190, R192): what a step does before it executes anything. -/

namespace Sys2Proof.Machine

/-! ### Fetch and Decode in a step -/

/-- R83: a Fetch that succeeds leaves its word in IR, whatever Decode and Execute make of it. -/
theorem stepWith_ir {p : DecodePriority} {s t : State} (h : stepWith p s = .next t) (hc : s.ic < 100) :
    t.ir = memRead s s.ic := by
  rcases stepWith_cases h with ⟨hout, -⟩ | ⟨-, k, -, rfl⟩ | ⟨-, i, -, he⟩
  · omega
  · rfl
  · exact (executes_of_exec he).ir_eq

theorem exists_stepWith_ir {p : DecodePriority} {s : State} (hr : s.status = .run) (hc : s.ic < 100) :
    ∃ t, stepWith p s = .next t ∧ t.ir = memRead s s.ic := by
  obtain ⟨t, h⟩ := stepWith_completes hr
  exact ⟨t, h, stepWith_ir h hc⟩

/-- R83: the step of a counter outside memory. -/
theorem eq_of_stepWith_counterOutOfRange {p : DecodePriority} {s t : State} (h : stepWith p s = .next t)
    (hc : 100 ≤ s.ic) : t = { s with status := .failed .counterOutOfRange } :=
  Host.Outcome.next.inj (h.symm.trans (stepWith_counterOutOfRange (running_of_stepWith_next h) hc))

/-- The priority matters to a step only through what Decode answers. -/
theorem stepWith_eq_of_decodeWith_eq {p q : DecodePriority} {s : State}
    (h : decodeWith p (memRead s s.ic).val = decodeWith q (memRead s s.ic).val) : stepWith p s = stepWith q s := by
  simp only [stepWith, runCycle, fetchDecode, h]

theorem stepWith_eq_of_not_running {p q : DecodePriority} {s : State} (h : s.status ≠ .run) :
    stepWith p s = stepWith q s := by
  cases hs : s.status with
  | run => exact absurd hs h
  | halted => simp [stepWith, hs]
  | failed k => simp [stepWith, hs]

/-- Without the condition of D3 Decode answers the same for both priorities. -/
theorem decodeWith_eq_of_not_trem_neg {p q : DecodePriority} {w : Int} (h : ¬ trem w 100 < 0) :
    decodeWith p w = decodeWith q w := by
  rcases decodeWith_cases w with ⟨hneg, -⟩ | ⟨-, -, hd⟩ | ⟨-, -, i, hd⟩
  · exact absurd hneg h
  · rw [hd, hd]
  · rw [hd, hd]

/-! ### The statements -/

/-- Settles O24: the instruction decoded is the one executed, from the latched state. -/
theorem stepRunsTheDecodedInstruction : Obligations.StepRunsTheDecodedInstruction := by
  unfold Obligations.StepRunsTheDecodedInstruction
  intro s i hr hc hd
  exact stepWith_decoded hr hc hd

/-- Settles O25: the fetch unit's check fails and nothing else is done. -/
theorem fetchOutsideMemoryFails : Obligations.FetchOutsideMemoryFails := by
  unfold Obligations.FetchOutsideMemoryFails
  intro p s hr hc
  exact stepWith_counterOutOfRange hr hc

/-- Settles O26: the operand condition is a negative remainder, which only words without a code have; every failing Decode
leaves the fetched word in IR. -/
theorem decodeFailureKeepsTheLatches : Obligations.DecodeFailureKeepsTheLatches := by
  unfold Obligations.DecodeFailureKeepsTheLatches
  intro p s hr hc w unknown oor
  have hoor : oor ↔ trem w.val 100 < 0 := or_iff_left (not_lt.mpr (trem_hundred_bounds w.val).2)
  have hunknown (h : oor) : unknown := tdiv_hundred_ne_code_of_neg (trem_hundred_neg_iff.mp (hoor.mp h)).1
  have hfirst (h : oor) : decodeWith .operandFirst w.val = .err .operandOutOfRange :=
    decodeWith_operandFirst_of_trem_neg (hoor.mp h)
  refine ⟨hunknown, ?_, fun h => ?_, ?_, ?_, fun hu h => ?_, fun hu h => ?_⟩
  · rw [and_iff_right_of_imp hunknown, hoor, trem_hundred_neg_iff]
  · exact stepWith_decodeError hr hc (hfirst h)
  · rintro h rfl
    exact stepWith_decodeError hr hc (hfirst h)
  · rintro h rfl
    exact stepWith_decodeError hr hc (decodeWith_opcodeFirst_of_trem_neg (hoor.mp h))
  · exact stepWith_decodeError hr hc (decodeWith_of_unknown (mt hoor.mpr h) hu)
  · obtain ⟨c, hcode, hq⟩ : ∃ c ∈ opcodes, tdiv w.val 100 = (c : Int) := by
      by_contra hne
      push Not at hne
      exact hu hne
    obtain ⟨i, hd⟩ := decodeWith_of_code (mt hoor.mpr h) hcode hq
    obtain ⟨hic, hia, -⟩ := decodeWith_ok_fields (hd p)
    exact ⟨i, hic.symm, hia.symm, stepWith_decoded hr hc (hd p)⟩

/-- Settles O30: a step that decodes a word of a negative remainder, and every other state: one that takes no step, one
whose Fetch fails, and one whose word Decode answers alike. -/
theorem priorityChangesOnlyTheReportedKind : Obligations.PriorityChangesOnlyTheReportedKind := by
  unfold Obligations.PriorityChangesOnlyTheReportedKind
  intro s w
  refine ⟨rfl, ?_⟩
  split_ifs with h
  · obtain ⟨hr, hc, hneg⟩ := h
    have htrem : trem w.val 100 < 0 := trem_hundred_neg_iff.mpr hneg
    exact ⟨stepWith_decodeError hr hc (decodeWith_operandFirst_of_trem_neg htrem),
      stepWith_decodeError hr hc (decodeWith_opcodeFirst_of_trem_neg htrem)⟩
  · by_cases hr : s.status = .run
    · by_cases hc : s.ic < 100
      · have htrem : ¬ trem w.val 100 < 0 := fun hneg => h ⟨hr, hc, trem_hundred_neg_iff.mp hneg⟩
        exact stepWith_eq_of_decodeWith_eq (decodeWith_eq_of_not_trem_neg htrem)
      · rw [stepWith_counterOutOfRange hr (not_lt.mp hc), stepWith_counterOutOfRange hr (not_lt.mp hc)]
    · exact stepWith_eq_of_not_running hr

/-- The step of a state that executes an instruction. -/
theorem step_eq_exec {s : State} {i : Instr} (h : currentInstr s = some i) :
    step s = exec i (latchDecoded i (loadIr s)) := by
  obtain ⟨hr, hc, hd⟩ := currentInstr_eq_some.mp h
  exact stepWith_decoded hr hc hd

/-- Settles O37: Fetch and Decode overwrite the three registers before Execute starts. -/
theorem oldLatchesAreNeverRead : Obligations.OldLatchesAreNeverRead := by
  unfold Obligations.OldLatchesAreNeverRead
  intro s i w c d h
  have h' : currentInstr { s with ir := w, opc := c, opd := d } = some i := h
  rw [step_eq_exec h, step_eq_exec h']
  rfl

/-- Settles O45: reset is the start of a run on the memory and the inputs as they are. -/
theorem resetFromAnyState : Obligations.ResetFromAnyState := by
  unfold Obligations.ResetFromAnyState
  intro s
  rw [assertReset_eq]
  rfl

/-- Settles O46: the start is running with IC 0, so its step completes and fetches there. -/
theorem runStartsAtAddressZero : Obligations.RunStartsAtAddressZero := by
  unfold Obligations.RunStartsAtAddressZero
  intro p image inputs
  exact exists_stepWith_ir (start_status image inputs) (by simp)

end Sys2Proof.Machine
end

section
/-! PROOFS. The statements about errors (60_exceptions.md R160, R166): when a step raises each kind, and what it has
written then. -/

namespace Sys2Proof.Machine

/-! ### Errors of Decode -/

theorem decodeWith_eq_operandOutOfRange_iff {p : DecodePriority} {w : Int} :
    decodeWith p w = .err .operandOutOfRange ↔ p = .operandFirst ∧ trem w 100 < 0 := by
  rcases decodeWith_cases w with ⟨hneg, hfirst, hsecond⟩ | ⟨hneg, -, hd⟩ | ⟨hneg, -, i, hd⟩
  · cases p <;> simp [hneg, hfirst, hsecond]
  · simp [hneg, hd]
  · simp [hneg, hd]

theorem decodeWith_eq_unknownOperation_iff {p : DecodePriority} {w : Int} :
    decodeWith p w = .err .unknownOperation ↔
      (∀ c ∈ opcodes, tdiv w 100 ≠ (c : Int)) ∧ ¬ (p = .operandFirst ∧ trem w 100 < 0) := by
  rcases decodeWith_cases w with ⟨hneg, hfirst, hsecond⟩ | ⟨hneg, hunknown, hd⟩ | ⟨hneg, ⟨c, hc, hq⟩, i, hd⟩
  · have hunknown := tdiv_hundred_ne_code_of_neg (trem_hundred_neg_iff.mp hneg).1
    rw [and_iff_right hunknown]
    cases p <;> simp [hneg, hfirst, hsecond]
  · rw [and_iff_right hunknown]
    simp [hneg, hd]
  · have hknown : ¬ ∀ c ∈ opcodes, tdiv w 100 ≠ (c : Int) := fun h => h c hc hq
    simp only [hd, hknown, reduceCtorEq, false_and]

/-! ### Errors of Execute -/

/-- Execute of `i` from `s` raises `k`. -/
def ExecuteFails (k : ErrorKind) (i : Instr) (s : State) : Prop := ∃ t, Executes i s t ∧ t.status = .failed k

section
variable {k : ErrorKind} {i : Instr} {s : State} (hr : s.status = .run)
include hr

/-- R160: three of the kinds are Execute's. -/
theorem ExecuteFails.kind (h : ExecuteFails k i s) : k = .inputExhausted ∨ k = .invalidWord ∨ k = .divisionByZero := by
  obtain ⟨t, h, ht⟩ := h
  cases h with
  | readExhausted _ => exact .inl (Status.failed.inj ht).symm
  | readInvalid _ _ => exact .inr (.inl (Status.failed.inj ht).symm)
  | addInvalid _ => exact .inr (.inl (Status.failed.inj ht).symm)
  | subtractInvalid _ => exact .inr (.inl (Status.failed.inj ht).symm)
  | multiplyInvalid _ => exact .inr (.inl (Status.failed.inj ht).symm)
  | divideByZero _ => exact .inr (.inr (Status.failed.inj ht).symm)
  | _ => simp [hr] at ht

theorem executeFails_inputExhausted_iff :
    ExecuteFails .inputExhausted i s ↔ ∃ a, i = .read a ∧ s.inputs.length ≤ s.incur := by
  constructor
  · rintro ⟨t, h, ht⟩
    cases h with
    | readExhausted h => exact ⟨_, rfl, nextInput_eq_none_iff.mp h⟩
    | _ => simp [hr] at ht
  · rintro ⟨a, rfl, h⟩
    exact ⟨_, .readExhausted (nextInput_eq_none_iff.mpr h), rfl⟩

theorem executeFails_divisionByZero_iff :
    ExecuteFails .divisionByZero i s ↔ ∃ a, i = .divide a ∧ (memRead s a).val = 0 := by
  constructor
  · rintro ⟨t, h, ht⟩
    cases h with
    | divideByZero hm => exact ⟨_, rfl, hm⟩
    | _ => simp [hr] at ht
  · rintro ⟨a, rfl, hm⟩
    exact ⟨_, .divideByZero hm, rfl⟩

/-- R81: a read, or one of the three instructions whose candidate can leave the Word range. -/
theorem executeFails_invalidWord_iff :
    ExecuteFails .invalidWord i s ↔ ∃ a,
      (i = .read a ∧ ∃ h : s.incur < s.inputs.length, ¬ InWordRange s.inputs[s.incur]) ∨
      (i = .add a ∧ ¬ InWordRange (s.acc.val + (memRead s a).val)) ∨
      (i = .subtract a ∧ ¬ InWordRange (s.acc.val - (memRead s a).val)) ∨
      (i = .multiply a ∧ ¬ InWordRange (s.acc.val * (memRead s a).val)) := by
  constructor
  · rintro ⟨t, h, ht⟩
    cases h with
    | readInvalid h hv =>
      obtain ⟨hlt, rfl⟩ := nextInput_eq_some_iff.mp h
      exact ⟨_, .inl ⟨rfl, hlt, hv⟩⟩
    | addInvalid h => exact ⟨_, .inr (.inl ⟨rfl, h⟩)⟩
    | subtractInvalid h => exact ⟨_, .inr (.inr (.inl ⟨rfl, h⟩))⟩
    | multiplyInvalid h => exact ⟨_, .inr (.inr (.inr ⟨rfl, h⟩))⟩
    | _ => simp [hr] at ht
  · rintro ⟨a, ⟨rfl, hlt, hv⟩ | ⟨rfl, h⟩ | ⟨rfl, h⟩ | ⟨rfl, h⟩⟩
    · exact ⟨_, .readInvalid (nextInput_eq_some_iff.mpr ⟨hlt, rfl⟩) hv, rfl⟩
    · exact ⟨_, .addInvalid h, rfl⟩
    · exact ⟨_, .subtractInvalid h, rfl⟩
    · exact ⟨_, .multiplyInvalid h, rfl⟩

/-! ### Errors of a step -/

theorem latched_running (i : Instr) : (latchDecoded i (loadIr s)).status = .run := hr

/-- R164: the three phases in which a step can fail. -/
theorem failsWith_iff {p : DecodePriority} :
    FailsWith p s k ↔
      (100 ≤ s.ic ∧ k = .counterOutOfRange) ∨
      (s.ic < 100 ∧ decodeWith p (memRead s s.ic).val = .err k) ∨
      (s.ic < 100 ∧ ∃ i, decodeWith p (memRead s s.ic).val = .ok i ∧ ExecuteFails k i (latchDecoded i (loadIr s))) := by
  constructor
  · rintro ⟨t, h, ht⟩
    rcases stepWith_cases h with ⟨hc, rfl⟩ | ⟨hc, k', hd, rfl⟩ | ⟨hc, i, hd, he⟩
    · exact .inl ⟨hc, (Status.failed.inj ht).symm⟩
    · obtain rfl := Status.failed.inj ht
      exact .inr (.inl ⟨hc, hd⟩)
    · exact .inr (.inr ⟨hc, i, hd, t, executes_of_exec he, ht⟩)
  · rintro (⟨hc, rfl⟩ | ⟨hc, hd⟩ | ⟨hc, i, hd, t, he, ht⟩)
    · exact ⟨_, stepWith_counterOutOfRange hr hc, rfl⟩
    · exact ⟨_, stepWith_decodeError hr hc hd, rfl⟩
    · exact ⟨t, (stepWith_decoded hr hc hd).trans (he.exec_eq (wellFormed_of_decodeWith hd)), ht⟩

theorem failsWith_of_decode_kind {p : DecodePriority} (hk : k = .operandOutOfRange ∨ k = .unknownOperation) :
    FailsWith p s k ↔ s.ic < 100 ∧ decodeWith p (memRead s s.ic).val = .err k := by
  have hexec (i : Instr) : ¬ ExecuteFails k i (latchDecoded i (loadIr s)) := fun h => by
    rcases hk with rfl | rfl <;> simpa using h.kind (latched_running hr i)
  rw [failsWith_iff hr]
  rcases hk with rfl | rfl <;> simp [hexec]

theorem failsWith_of_execute_kind {p : DecodePriority}
    (hk : k = .inputExhausted ∨ k = .invalidWord ∨ k = .divisionByZero) :
    FailsWith p s k ↔
      s.ic < 100 ∧ ∃ i, decodeWith p (memRead s s.ic).val = .ok i ∧ ExecuteFails k i (latchDecoded i (loadIr s)) := by
  have hdecode : decodeWith p (memRead s s.ic).val ≠ .err k := fun h => by
    rcases hk with rfl | rfl | rfl <;> simpa using decodeWith_err_kind h
  rw [failsWith_iff hr]
  rcases hk with rfl | rfl | rfl <;> simp [hdecode]

theorem not_failsWith_loadFailure {p : DecodePriority} : ¬ FailsWith p s .loadFailure := by
  rw [failsWith_iff hr]
  rintro (⟨-, hk⟩ | ⟨-, hd⟩ | ⟨-, i, -, h⟩)
  · cases hk
  · exact decodeWith_err_ne_loadFailure hd rfl
  · simpa using h.kind (latched_running hr i)

theorem failsWith_counterOutOfRange_iff {p : DecodePriority} : FailsWith p s .counterOutOfRange ↔ 100 ≤ s.ic := by
  constructor
  · intro h
    rcases (failsWith_iff hr).mp h with ⟨hc, -⟩ | ⟨-, hd⟩ | ⟨-, i, -, h⟩
    · exact hc
    · simpa using decodeWith_err_kind hd
    · simpa using h.kind (latched_running hr i)
  · exact fun hc => (failsWith_iff hr).mpr (.inl ⟨hc, rfl⟩)

end

/-- A condition on the operand of a decoded instruction of one operation. -/
theorem exists_decoded_iff {p : DecodePriority} {w : Int} {op : Nat → Instr} {P : Instr → Nat → Prop} :
    (∃ i, decodeWith p w = .ok i ∧ ∃ a, i = op a ∧ P i a) ↔ ∃ a, decodeWith p w = .ok (op a) ∧ P (op a) a := by
  constructor
  · rintro ⟨_, hd, a, rfl, h⟩
    exact ⟨a, hd, h⟩
  · rintro ⟨a, hd, h⟩
    exact ⟨op a, hd, a, rfl, h⟩

/-- Settles O28: each kind belongs to one phase of the step, and there to its condition. -/
theorem eachErrorIsRaisedExactlyWhen : Obligations.EachErrorIsRaisedExactlyWhen := by
  unfold Obligations.EachErrorIsRaisedExactlyWhen
  intro p s hr w cell
  refine ⟨not_failsWith_loadFailure hr, failsWith_counterOutOfRange_iff hr, ?_, ?_, ?_, ?_, ?_⟩
  · rw [failsWith_of_decode_kind hr (.inl rfl), decodeWith_eq_operandOutOfRange_iff]
  · rw [failsWith_of_decode_kind hr (.inr rfl), decodeWith_eq_unknownOperation_iff]
  · rw [failsWith_of_execute_kind hr (.inl rfl)]
    simp only [executeFails_inputExhausted_iff (latched_running hr _)]
    exact and_congr_right fun _ => exists_decoded_iff
  · rw [failsWith_of_execute_kind hr (.inr (.inl rfl))]
    simp only [executeFails_invalidWord_iff (latched_running hr _)]
    simp only [exists_or, and_or_left, exists_decoded_iff]
    rfl
  · rw [failsWith_of_execute_kind hr (.inr (.inr rfl))]
    simp only [executeFails_divisionByZero_iff (latched_running hr _)]
    exact and_congr_right fun _ => exists_decoded_iff

/-! ### What a failing step has written -/

theorem stepWith_of_failed {p : DecodePriority} {s : State} {k : ErrorKind} (h : s.status = .failed k) :
    stepWith p s = .fault (.failed k) := by
  simp [stepWith, h]

/-- Settles O29: the failed state of each phase, and of each failing form of Execute. -/
theorem failingStepWritesOnlyWhatTheTableLists : Obligations.FailingStepWritesOnlyWhatTheTableLists := by
  unfold Obligations.FailingStepWritesOnlyWhatTheTableLists
  intro p s t k hic hincur hstep ht
  refine ⟨stepWith_of_failed ht, ?_⟩
  have hr : s.status = .run := running_of_stepWith_next hstep
  rcases stepWith_cases hstep with ⟨hc, rfl⟩ | ⟨-, k', hd, rfl⟩ | ⟨-, i, hd, he⟩
  · obtain rfl := Status.failed.inj ht
    exact ⟨le_antisymm hic hc, rfl⟩
  · obtain rfl := Status.failed.inj ht
    rcases decodeWith_err_kind hd with rfl | rfl <;> rfl
  · have hword : encode i = (memRead s s.ic).val := encode_of_decodeWith hd
    have hw : i.WellFormed := wellFormed_of_decodeWith hd
    cases executes_of_exec he with
    | readExhausted h =>
      obtain rfl := Status.failed.inj ht
      exact ⟨_, hword ▸ encode_read _, hw, le_antisymm hincur (nextInput_eq_none_iff.mp h), rfl⟩
    | readInvalid _ _ =>
      obtain rfl := Status.failed.inj ht
      exact ⟨10, _, hword.symm, hw, .inl ⟨rfl, rfl⟩⟩
    | addInvalid _ =>
      obtain rfl := Status.failed.inj ht
      exact ⟨30, _, hword.symm, hw, .inr ⟨.inl rfl, rfl⟩⟩
    | subtractInvalid _ =>
      obtain rfl := Status.failed.inj ht
      exact ⟨31, _, hword.symm, hw, .inr ⟨.inr (.inl rfl), rfl⟩⟩
    | multiplyInvalid _ =>
      obtain rfl := Status.failed.inj ht
      exact ⟨33, _, hword.symm, hw, .inr ⟨.inr (.inr rfl), rfl⟩⟩
    | divideByZero _ =>
      obtain rfl := Status.failed.inj ht
      exact ⟨_, hword ▸ encode_divide _, hw, rfl⟩
    | _ => simp [hr] at ht

end Sys2Proof.Machine
end

section
/-! PROOFS. What a step writes, and what shows of it: the ports (50_blocks_and_interfaces.md R148 to R152, 20_memory.md
R41), and the statements about ACC, memory, the counter, the cursor and OUT (10_state.md R21 to R29, 20_memory.md R51,
40_instruction_cycle.md R89) that follow from it. -/

namespace Sys2Proof.Machine

/-- A step that answers a next state has failed before Execute, or is the Execute of the current instruction. -/
theorem step_cases {s t : State} (h : step s = .next t) :
    (currentInstr s = none ∧ ∃ w k, t = { s with ir := w, status := .failed k }) ∨
      ∃ i, currentInstr s = some i ∧ Executes i (latchDecoded i (loadIr s)) t := by
  rcases stepWith_cases h with ⟨hc, rfl⟩ | ⟨-, k, hd, rfl⟩ | ⟨hc, i, hd, he⟩
  · refine .inl ⟨Option.eq_none_iff_forall_ne_some.mpr fun i hi => ?_, s.ir, _, rfl⟩
    obtain ⟨-, hlt, -⟩ := currentInstr_eq_some.mp hi
    omega
  · refine .inl ⟨Option.eq_none_iff_forall_ne_some.mpr fun i hi => ?_, _, k, rfl⟩
    obtain ⟨-, -, hok⟩ := currentInstr_eq_some.mp hi
    simp [hok] at hd
  · exact .inr ⟨i, currentInstr_eq_some.mpr ⟨running_of_stepWith_next h, hc, hd⟩, executes_of_exec he⟩

theorem wellFormed_of_currentInstr {s : State} {i : Instr} (h : currentInstr s = some i) : i.WellFormed :=
  wellFormed_of_decodeWith (currentInstr_eq_some.mp h).2.2

theorem running_of_currentInstr {s : State} {i : Instr} (h : currentInstr s = some i) : s.status = .run :=
  (currentInstr_eq_some.mp h).1

/-! ### Execute does what its row of R41 shows -/

theorem executeActivity_latched (i : Instr) (s : State) :
    executeActivity i (latchDecoded i (loadIr s)) = executeActivity i s := by
  cases i <;> rfl

/-- R44: cell `b` after the write access of a step, if it has one. -/
def memoryAfter (written : Option Cell) (s : State) (b : Nat) : Word :=
  match written with
  | some (a, v) => if b = a then v else memRead s b
  | none => memRead s b

theorem memoryAfter_none (s : State) (b : Nat) : memoryAfter none s b = memRead s b := rfl

theorem memoryAfter_some (a : Nat) (v : Word) (s : State) (b : Nat) :
    memoryAfter (some (a, v)) s b = if b = a then v else memRead s b := rfl

theorem executeActivity_read_dataWrite (a : Nat) (s : State) :
    (executeActivity (.read a) s).dataWrite = ((nextInput s).bind validate).map fun w => (a, w) := rfl

/-- R41: only a read that finds a Word, and a store, write a cell. -/
theorem Executes.memory_shown {i : Instr} {s t : State} (h : Executes i s t) (b : Nat) :
    memRead t b = memoryAfter (executeActivity i s).dataWrite s b := by
  cases h with
  | readExhausted h =>
    rw [executeActivity_read_dataWrite, h, Option.bind_none, Option.map_none, memoryAfter_none]
  | readInvalid h hv =>
    rw [executeActivity_read_dataWrite, h, Option.bind_some, validate_eq_none_iff.mpr (not_inWordRange_iff.mp hv),
      Option.map_none, memoryAfter_none]
    rfl
  | readWord h =>
    rw [executeActivity_read_dataWrite, h, Option.bind_some, validate_val, Option.map_some, memoryAfter_some]
    exact memRead_memWrite _ b _ (inPop s)
  | store => exact memRead_memWrite _ b s.acc s
  | _ => rfl

/-- R150: only a read that finds an element pops it. -/
theorem Executes.incur_shown {i : Instr} {s t : State} (h : Executes i s t) :
    t.incur = s.incur + (if (executeActivity i s).popped then 1 else 0) := by
  cases h with
  | readExhausted h => simp [executeActivity, h]
  | readInvalid h _ => simp [executeActivity, h]
  | readWord h => simp [executeActivity, h]
  | _ => rfl

/-- R151: only a write emits. -/
theorem Executes.out_shown {i : Instr} {s t : State} (h : Executes i s t) :
    t.out = s.out ++ (executeActivity i s).emitted.toList := by
  cases h with
  | write => rfl
  | _ => exact (List.append_nil _).symm

/-! ### The activity of a step -/

theorem stepActivity_of_currentInstr {s : State} {i : Instr} (h : currentInstr s = some i) :
    stepActivity s = { executeActivity i s with fetchRead := some s.ic } := by
  obtain ⟨hr, hc, -⟩ := currentInstr_eq_some.mp h
  rw [stepActivity, if_pos ⟨hr, (counterInRange_iff s).mpr hc⟩, h]

/-- R145, R149: without an instruction nothing but the fetch read is shown. -/
theorem stepActivity_of_none {s : State} (h : currentInstr s = none) :
    stepActivity s = { Activity.none with fetchRead := (stepActivity s).fetchRead } := by
  rw [stepActivity, h]
  split <;> rfl

/-- R149: the fetch read of a running machine. -/
theorem stepActivity_fetchRead {s : State} (hr : s.status = .run) :
    (stepActivity s).fetchRead = if s.ic < 100 then some s.ic else none := by
  by_cases hc : s.ic < 100
  · rw [stepActivity, if_pos ⟨hr, (counterInRange_iff s).mpr hc⟩, if_pos hc]
    split <;> rfl
  · rw [stepActivity, if_neg (fun h => hc ((counterInRange_iff s).mp h.2)), if_neg hc]
    rfl

theorem step_memory_shown {s t : State} (h : step s = .next t) (b : Nat) :
    memRead t b = memoryAfter (stepActivity s).dataWrite s b := by
  rcases step_cases h with ⟨hn, w, k, rfl⟩ | ⟨i, hi, he⟩
  · rw [stepActivity_of_none hn]
    rfl
  · rw [stepActivity_of_currentInstr hi, he.memory_shown, executeActivity_latched]
    rfl

theorem step_incur_shown {s t : State} (h : step s = .next t) :
    t.incur = s.incur + (if (stepActivity s).popped then 1 else 0) := by
  rcases step_cases h with ⟨hn, w, k, rfl⟩ | ⟨i, hi, he⟩
  · rw [stepActivity_of_none hn]
    rfl
  · rw [stepActivity_of_currentInstr hi, he.incur_shown, executeActivity_latched]
    rfl

theorem step_out_shown {s t : State} (h : step s = .next t) : t.out = s.out ++ (stepActivity s).emitted.toList := by
  rcases step_cases h with ⟨hn, w, k, rfl⟩ | ⟨i, hi, he⟩
  · rw [stepActivity_of_none hn]
    exact (List.append_nil _).symm
  · rw [stepActivity_of_currentInstr hi, he.out_shown, executeActivity_latched]
    rfl

theorem step_inputs {s t : State} (h : step s = .next t) : t.inputs = s.inputs := by
  rcases step_cases h with ⟨-, w, k, rfl⟩ | ⟨i, -, he⟩
  · rfl
  · exact he.inputs_eq

/-- R41: the rows with a write access. -/
theorem read_or_store_of_dataWrite {s : State} {a : Nat} {v : Word} (h : (stepActivity s).dataWrite = some (a, v)) :
    currentInstr s = some (.read a) ∨ currentInstr s = some (.store a) := by
  cases hi : currentInstr s with
  | none =>
    rw [stepActivity_of_none hi] at h
    cases h
  | some i =>
    rw [stepActivity_of_currentInstr hi] at h
    cases i with
    | read b =>
      obtain ⟨w, -, hw⟩ := Option.map_eq_some_iff.mp h
      exact .inl (by rw [(Prod.mk.inj hw).1])
    | store b => exact .inr (by rw [(Prod.mk.inj (Option.some.inj h)).1])
    | _ => cases h

/-- R150: the pop of a step. -/
theorem stepActivity_popped_iff {s : State} :
    (stepActivity s).popped = true ↔ (∃ a, currentInstr s = some (.read a)) ∧ s.incur < s.inputs.length := by
  cases hi : currentInstr s with
  | none =>
    rw [stepActivity_of_none hi]
    simp [Activity.none]
  | some i =>
    rw [stepActivity_of_currentInstr hi]
    cases i <;> simp [executeActivity, Activity.none, nextInput]

/-- R151: the emit of a step. -/
theorem stepActivity_emitted_of_write {s : State} {a : Nat} (h : currentInstr s = some (.write a)) :
    (stepActivity s).emitted = some (a, memRead s a) := by
  rw [stepActivity_of_currentInstr h]
  rfl

theorem stepActivity_emitted_of_not_write {s : State} (h : ∀ a, currentInstr s ≠ some (.write a)) :
    (stepActivity s).emitted = none := by
  cases hi : currentInstr s with
  | none => rw [stepActivity_of_none hi, Activity.none]
  | some i =>
    rw [stepActivity_of_currentInstr hi]
    cases i with
    | write a => exact absurd hi (h a)
    | _ => rfl

/-- R149: no row has both a read and a write access. -/
theorem executeActivity_one_access (i : Instr) (s : State) :
    (executeActivity i s).dataRead = none ∨ (executeActivity i s).dataWrite = none := by
  cases i with
  | read a => exact .inl rfl
  | store a => exact .inl rfl
  | _ => exact .inr rfl

theorem stepActivity_one_access (s : State) : (stepActivity s).dataRead = none ∨ (stepActivity s).dataWrite = none := by
  cases hi : currentInstr s with
  | none =>
    rw [stepActivity_of_none hi]
    exact .inl rfl
  | some i =>
    rw [stepActivity_of_currentInstr hi]
    exact executeActivity_one_access i s

/-- R24, R149: IR takes the word of the fetch read. -/
theorem step_ir_shown {s t : State} (h : step s = .next t) :
    t.ir = (match (stepActivity s).fetchRead with | some a => memRead s a | none => s.ir) := by
  have hr : s.status = .run := running_of_stepWith_next h
  rw [stepActivity_fetchRead hr]
  by_cases hc : s.ic < 100
  · rw [if_pos hc]
    exact stepWith_ir h hc
  · rw [if_neg hc]
    rw [eq_of_stepWith_counterOutOfRange h (not_lt.mp hc)]

/-! ### The statements -/

/-- Settles O49: clause by clause what the activity of the step shows. -/
theorem portsShowWhatTheStepDoes : Obligations.PortsShowWhatTheStepDoes := by
  unfold Obligations.PortsShowWhatTheStepDoes
  intro s t h act
  refine ⟨stepActivity_fetchRead (running_of_stepWith_next h), step_ir_shown h, ?_, fun _ _ => read_or_store_of_dataWrite,
    fun a ha => ?_, fun a v ha hv => ?_, stepActivity_one_access s, fun b => step_memory_shown h b, step_incur_shown h,
    step_out_shown h⟩
  · cases hi : currentInstr s with
    | none =>
      rw [show act = _ from stepActivity_of_none hi]
      rfl
    | some i =>
      rw [show act = _ from stepActivity_of_currentInstr hi]
      cases i <;> rfl
  · rw [show act = _ from stepActivity_of_currentInstr ha]
    rfl
  · have hnext : nextInput s = some v.val := hv
    rw [show act = _ from stepActivity_of_currentInstr ha]
    simp [executeActivity, hnext]

/-- The five instructions that have ACC as their destination. -/
theorem Executes.loadOrArithmetic_of_acc_ne {i : Instr} {s t : State} (h : Executes i s t) (hne : t.acc ≠ s.acc) :
    ∃ a, i = .load a ∨ i = .add a ∨ i = .subtract a ∨ i = .multiply a ∨ i = .divide a := by
  cases h with
  | load => exact ⟨_, .inl rfl⟩
  | add _ => exact ⟨_, .inr (.inl rfl)⟩
  | subtract _ => exact ⟨_, .inr (.inr (.inl rfl))⟩
  | multiply _ => exact ⟨_, .inr (.inr (.inr (.inl rfl)))⟩
  | divide _ _ => exact ⟨_, .inr (.inr (.inr (.inr rfl)))⟩
  | _ => exact absurd rfl hne

/-- Settles O32: the cell of the shown write access is the operand of a read or a store. -/
theorem memoryIsWrittenOnlyAtTheOperandOfReadAndStore :
    Obligations.MemoryIsWrittenOnlyAtTheOperandOfReadAndStore := by
  unfold Obligations.MemoryIsWrittenOnlyAtTheOperandOfReadAndStore
  intro s t h b hne
  rw [step_memory_shown h] at hne
  cases hw : (stepActivity s).dataWrite with
  | none => exact absurd (by rw [hw, memoryAfter_none]) hne
  | some c =>
    obtain ⟨a, v⟩ := c
    obtain rfl : b = a := by
      by_contra hba
      exact hne (by rw [hw, memoryAfter_some, if_neg hba])
    exact read_or_store_of_dataWrite hw

/-- Settles O34: the pop and the emit of the step's activity. -/
theorem cursorAndOutputLogMoveOnlyByReadAndWrite : Obligations.CursorAndOutputLogMoveOnlyByReadAndWrite := by
  unfold Obligations.CursorAndOutputLogMoveOnlyByReadAndWrite
  intro s t h
  refine ⟨step_inputs h, fun hread hlt => ?_, fun hno => ?_, fun a ha => ?_, fun hno => ?_⟩
  · rw [step_incur_shown h, if_pos (stepActivity_popped_iff.mpr ⟨hread, hlt⟩)]
  · rw [step_incur_shown h, if_neg (mt stepActivity_popped_iff.mp hno), Nat.add_zero]
  · rw [step_out_shown h, stepActivity_emitted_of_write ha, Option.toList_some]
  · rw [step_out_shown h, stepActivity_emitted_of_not_write hno, Option.toList_none, List.append_nil]

/-! ### The counter -/

/-- R89: where an instruction that does not fail leaves IC. -/
def counterAfter (i : Instr) (s : State) : Nat :=
  match i with
  | .branch a => a
  | .branchNeg a => if s.acc.val < 0 then a else s.ic + 1
  | .branchZero a => if s.acc.val = 0 then a else s.ic + 1
  | .halt _ => s.ic
  | _ => s.ic + 1

theorem Executes.counter {i : Instr} {s t : State} (h : Executes i s t) (hr : s.status = .run) :
    ((∃ k, t.status = .failed k) ∧ t.ic = s.ic) ∨ ((∀ k, t.status ≠ .failed k) ∧ t.ic = counterAfter i s) := by
  cases h with
  | readExhausted _ => exact .inl ⟨⟨_, rfl⟩, rfl⟩
  | readInvalid _ _ => exact .inl ⟨⟨_, rfl⟩, rfl⟩
  | addInvalid _ => exact .inl ⟨⟨_, rfl⟩, rfl⟩
  | subtractInvalid _ => exact .inl ⟨⟨_, rfl⟩, rfl⟩
  | multiplyInvalid _ => exact .inl ⟨⟨_, rfl⟩, rfl⟩
  | divideByZero _ => exact .inl ⟨⟨_, rfl⟩, rfl⟩
  | branchNegTaken h => exact .inr ⟨by simp [hr], (if_pos h).symm⟩
  | branchNegNot h => exact .inr ⟨by simp [hr], (if_neg (not_lt.mpr h)).symm⟩
  | branchZeroTaken h => exact .inr ⟨by simp [hr], (if_pos h).symm⟩
  | branchZeroNot h => exact .inr ⟨by simp [hr], (if_neg h).symm⟩
  | _ => exact .inr ⟨by simp [hr], rfl⟩

theorem step_counter {s t : State} (h : step s = .next t) :
    ((∃ k, t.status = .failed k) ∧ t.ic = s.ic) ∨
      ((∀ k, t.status ≠ .failed k) ∧ ∃ i, currentInstr s = some i ∧ t.ic = counterAfter i s) := by
  rcases step_cases h with ⟨-, w, k, rfl⟩ | ⟨i, hi, he⟩
  · exact .inl ⟨⟨k, rfl⟩, rfl⟩
  · rcases he.counter (latched_running (running_of_currentInstr hi) i) with hfail | ⟨hno, hic⟩
    · exact .inl hfail
    · exact .inr ⟨hno, i, hi, hic⟩

theorem step_ic_of_failed {s t : State} {k : ErrorKind} (h : step s = .next t) (hk : t.status = .failed k) :
    t.ic = s.ic := by
  rcases step_counter h with ⟨-, hic⟩ | ⟨hno, -⟩
  · exact hic
  · exact absurd hk (hno k)

theorem step_ic_of_not_failed {s t : State} (h : step s = .next t) (hno : ∀ k, t.status ≠ .failed k) :
    ∃ i, currentInstr s = some i ∧ t.ic = counterAfter i s := by
  rcases step_counter h with ⟨⟨k, hk⟩, -⟩ | ⟨-, hi⟩
  · exact absurd hk (hno k)
  · exact hi

/-- Settles O33: a step fails and stays, or its instruction says where it goes; IC = 100 is what Fetch refuses. -/
theorem counterAdvancesBranchesOrStays : Obligations.CounterAdvancesBranchesOrStays := by
  unfold Obligations.CounterAdvancesBranchesOrStays
  refine ⟨fun s t h => ⟨fun k => step_ic_of_failed h, step_ic_of_not_failed h⟩, fun s t hic h hr hadv => ?_⟩
  have hcounter : t.ic = 100 := by omega
  exact ⟨hcounter, stepWith_counterOutOfRange hr hcounter.ge⟩

/-! ### Self-modification -/

/-- R51: once the cell is written and the counter advanced, the cell's word is what the next Fetch there gets. -/
theorem exists_step_ir_advance_memWrite {s : State} {a : Nat} (v : Word) (hr : s.status = .run) (ha : a < 100)
    (hnext : a = s.ic + 1) : ∃ u, step (advance (memWrite a v s)) = .next u ∧ u.ir = v := by
  subst hnext
  obtain ⟨u, hu, hir⟩ := exists_stepWith_ir (p := Config.decodePriority) (s := advance (memWrite (s.ic + 1) v s)) hr ha
  refine ⟨u, hu, hir.trans ?_⟩
  rw [memRead_advance, memRead_memWrite]
  exact if_pos rfl

/-- R51 of an instruction whose Execute ends in a write of cell `a` and the advance, from a state `s'` that differs from
`s` in neither STATUS nor IC and has the fetched word in IR. -/
theorem step_of_exec_eq_advance_memWrite {i : Instr} {s s' : State} {a : Nat} {v : Word} (hi : currentInstr s = some i)
    (ha : a < 100) (he : exec i (latchDecoded i (loadIr s)) = .next (advance (memWrite a v s')))
    (hr : s'.status = .run) (hir : s'.ir = memRead s s.ic) (hic : s'.ic = s.ic) :
    ∃ t, step s = .next t ∧ t.ir = memRead s s.ic ∧ t.ic = s.ic + 1 ∧ memRead t a = v ∧
      (a = s.ic + 1 → ∃ u, step t = .next u ∧ u.ir = v) := by
  refine ⟨_, (step_eq_exec hi).trans he, hir, congrArg (· + 1) hic, ?_, fun hnext => ?_⟩
  · rw [memRead_advance, memRead_memWrite, if_pos rfl]
  · exact exists_step_ir_advance_memWrite v hr ha (by rw [hnext, hic])

/-- Settles O38: both instructions end in the write of the cell and the advance; the cursor makes no difference to the
next Fetch. -/
theorem writtenWordIsFetchedByTheNextStep : Obligations.WrittenWordIsFetchedByTheNextStep := by
  unfold Obligations.WrittenWordIsFetchedByTheNextStep
  rintro s a v (⟨hi, rfl⟩ | ⟨hi, hlt, hv⟩)
  · have ha : a < 100 := wellFormed_of_currentInstr hi
    exact step_of_exec_eq_advance_memWrite hi ha (exec_store ha _) (running_of_currentInstr hi) rfl rfl
  · have ha : a < 100 := wellFormed_of_currentInstr hi
    have hnext : nextInput (latchDecoded (.read a) (loadIr s)) = some v.val := nextInput_eq_some_iff.mpr ⟨hlt, hv⟩
    exact step_of_exec_eq_advance_memWrite hi ha (exec_read_of_word ha hnext) (running_of_currentInstr hi) rfl rfl

end Sys2Proof.Machine
end

section
/-! PROOFS. What a step does not look at: other inputs than the one at the cursor, OUT, and for read, write, branch and
halt the accumulator (10_state.md R21, R28, R29). -/

namespace Sys2Proof.Machine

/-- If every form of the instruction's rule that applies to `s` applies to `f s`, with its outcome changed by `f`, then so
is the outcome of `exec`; a fault is the same fault. -/
theorem exec_eq_mapNext {f : State → State} {i : Instr} {s : State}
    (h : ∀ t, Executes i s t → Executes i (f s) (f t)) : exec i (f s) = mapNext f (exec i s) := by
  by_cases hw : i.WellFormed
  · obtain ⟨t, ht⟩ := exists_executes i s
    rw [ht.exec_eq hw, (h t ht).exec_eq hw, mapNext]
  · rw [exec_of_not_wellFormed hw, exec_of_not_wellFormed hw, mapNext]

/-! ### The accumulator -/

/-- R21: the forms of the four rules without a condition on ACC, none of which writes it. -/
theorem Executes.withAcc {a : Nat} {i : Instr} {s t : State} (h : Executes i s t) (w : Word)
    (hi : i = .read a ∨ i = .write a ∨ i = .branch a ∨ i = .halt a) :
    Executes i { s with acc := w } { t with acc := w } := by
  cases h with
  | readExhausted h => exact .readExhausted h
  | readInvalid h hv => exact .readInvalid h hv
  | readWord h => exact .readWord h
  | write => exact .write
  | branch => exact .branch
  | halt => exact .halt
  | _ => simp at hi

/-- Settles O31: who writes ACC (`Executes.loadOrArithmetic_of_acc_ne`), and who does not look at it. -/
theorem accIsWrittenOnlyByLoadAndArithmetic : Obligations.AccIsWrittenOnlyByLoadAndArithmetic := by
  unfold Obligations.AccIsWrittenOnlyByLoadAndArithmetic
  constructor
  · intro s t h hne
    rcases step_cases h with ⟨-, w, k, rfl⟩ | ⟨i, hi, he⟩
    · exact absurd rfl hne
    · simpa only [hi, Option.some_inj] using he.loadOrArithmetic_of_acc_ne hne
  · intro a i s w hi
    exact exec_eq_mapNext (f := fun t => { t with acc := w }) fun t ht => ht.withAcc w hi

/-! ### The inputs, the cursor and OUT -/

/-- The state with its inputs and its cursor changed, and with pairs put before its OUT. -/
def withStreams (inputs : List Int → List Int) (cursor : Nat → Nat) (before : List Cell) (s : State) : State :=
  { s with inputs := inputs s.inputs, incur := cursor s.incur, out := before ++ s.out }

section
variable {inputs : List Int → List Int} {before : List Cell} {s t : State}

/-- R28, R29: no rule but read's has a condition on the inputs or the cursor, and none has one on OUT. -/
theorem executes_withStreams {cursor : Nat → Nat} {i : Instr} (h : Executes i s t) (hi : ∀ a, i ≠ .read a) :
    Executes i (withStreams inputs cursor before s) (withStreams inputs cursor before t) := by
  cases h with
  | readExhausted _ => exact absurd rfl (hi _)
  | readInvalid _ _ => exact absurd rfl (hi _)
  | readWord _ => exact absurd rfl (hi _)
  | @write a =>
    have happend : withStreams inputs cursor before (advance (emit a (memRead s a) s)) =
        advance (emit a (memRead s a) (withStreams inputs cursor before s)) := by
      simp [withStreams, advance, emit]
    rw [happend]
    exact .write
  | load => exact .load
  | store => exact .store
  | add h => exact .add h
  | addInvalid h => exact .addInvalid h
  | subtract h => exact .subtract h
  | subtractInvalid h => exact .subtractInvalid h
  | multiply h => exact .multiply h
  | multiplyInvalid h => exact .multiplyInvalid h
  | divide hm h => exact .divide hm h
  | divideByZero hm => exact .divideByZero hm
  | branch => exact .branch
  | branchNegTaken h => exact .branchNegTaken h
  | branchNegNot h => exact .branchNegNot h
  | branchZeroTaken h => exact .branchZeroTaken h
  | branchZeroNot h => exact .branchZeroNot h
  | halt => exact .halt

/-- R28: read looks at the element at the cursor. -/
theorem executes_withStreams_of_nextInput {i : Instr} (h : Executes i s t)
    (hnext : nextInput (withStreams inputs id before s) = nextInput s) :
    Executes i (withStreams inputs id before s) (withStreams inputs id before t) := by
  cases i with
  | read a =>
    cases h with
    | readExhausted h => exact .readExhausted (hnext.trans h)
    | readInvalid h hv => exact .readInvalid (hnext.trans h) hv
    | readWord h => exact .readWord (hnext.trans h)
  | _ => exact executes_withStreams h (fun _ hread => nomatch hread)

theorem step_withStreams (hnext : nextInput (withStreams inputs id before s) = nextInput s) :
    step (withStreams inputs id before s) = mapNext (withStreams inputs id before) (step s) := by
  have hstatus : (withStreams inputs id before s).status = s.status := rfl
  cases hs : s.status with
  | halted => rw [step_of_halted hs, step_of_halted (hstatus.trans hs), mapNext]
  | failed k => rw [step_of_failed hs, step_of_failed (hstatus.trans hs), mapNext]
  | run =>
    have hfetch : fetchDecode Config.decodePriority (withStreams inputs id before s) =
        fetchDecode Config.decodePriority s := rfl
    rw [step_eq, step_eq, stepWith_running hs, stepWith_running (hstatus.trans hs), runCycle, runCycle, hfetch]
    rcases fetchDecode Config.decodePriority s with _ | ⟨i | k⟩
    · rfl
    · exact exec_eq_mapNext (f := withStreams inputs id before) (s := latchDecoded i (loadIr s))
        fun t ht => executes_withStreams_of_nextInput ht hnext
    · rfl

end

/-- Settles O35: a step with the same element at the cursor, and Execute of an instruction other than read with whatever
inputs and cursor. -/
theorem noLookaheadIntoTheInputs : Obligations.NoLookaheadIntoTheInputs := by
  unfold Obligations.NoLookaheadIntoTheInputs
  constructor
  · intro s js hjs
    exact step_withStreams (inputs := fun _ => js) (before := []) hjs
  · intro i s js n hi
    exact exec_eq_mapNext (f := withStreams (fun _ => js) (fun _ => n) []) fun t ht => executes_withStreams ht hi

/-- Settles O36: no condition of a step is on OUT, and its one write to OUT is at the end. -/
theorem outputLogIsNeverRead : Obligations.OutputLogIsNeverRead := by
  unfold Obligations.OutputLogIsNeverRead
  intro s before
  exact step_withStreams (inputs := id) (before := before) rfl

end Sys2Proof.Machine
end

section
/-! PROOFS. The statements about runs (10_state.md R33, 40_instruction_cycle.md R90, R91): what the counts of a run are,
how it ends, and two ways for it to go on or not. -/

namespace Sys2Proof.Machine

/-! ### The counts of a run -/

theorem readsFound_eq (s : State) : readsFound s = if (stepActivity s).popped then 1 else 0 := by
  cases hi : currentInstr s with
  | none =>
    rw [readsFound, hi, stepActivity_of_none hi]
    rfl
  | some i =>
    rw [readsFound, hi, stepActivity_of_currentInstr hi]
    cases i with
    | read a => simp [executeActivity, nextInput]
    | _ => rfl

theorem writesDone_eq (s : State) : writesDone s = (stepActivity s).emitted.toList.length := by
  cases hi : currentInstr s with
  | none =>
    rw [writesDone, hi, stepActivity_of_none hi]
    rfl
  | some i =>
    rw [writesDone, hi, stepActivity_of_currentInstr hi]
    cases i <;> rfl

section
variable {image : Memory} {inputs : List Int} {r w : Nat} {s : State}

/-- R33 e, f: the cursor counts the pops behind the state, and OUT is as long as the emits behind it. -/
theorem Run.counts (h : Run image inputs r w s) : s.inputs = inputs ∧ s.incur = r ∧ s.out.length = w := by
  induction h with
  | start => exact ⟨rfl, rfl, rfl⟩
  | step _ hstep ih =>
    obtain ⟨hinputs, hincur, hout⟩ := ih
    refine ⟨(step_inputs hstep).trans hinputs, ?_, ?_⟩
    · rw [step_incur_shown hstep, readsFound_eq, hincur]
    · rw [step_out_shown hstep, writesDone_eq, List.length_append, hout]

theorem Run.inv (h : Run image inputs r w s) (hwf : Memory.wf image = true) : s.Inv := by
  induction h with
  | start => exact start_inv inputs hwf
  | step _ hstep ih => exact ih.stepWith hstep

end

/-! ### The counter at 100 -/

/-- R89: every instruction advances, stays (halt) or goes to its operand. -/
theorem counterAfter_cases (i : Instr) (s : State) :
    counterAfter i s = s.ic + 1 ∨ (∃ a, i = .halt a) ∨ counterAfter i s = i.operand := by
  cases i with
  | branch a => exact .inr (.inr rfl)
  | branchNeg a =>
    rw [counterAfter]
    split
    exacts [.inr (.inr rfl), .inl rfl]
  | branchZero a =>
    rw [counterAfter]
    split
    exacts [.inr (.inr rfl), .inl rfl]
  | halt a => exact .inr (.inl ⟨a, rfl⟩)
  | _ => exact .inl rfl

/-- R133: after a halt the machine does not run. -/
theorem not_halt_of_step_running {s t : State} (h : step s = .next t) (hr : t.status = .run) (a : Nat) :
    currentInstr s ≠ some (.halt a) := fun hi => by
  have hhalted := (step_halts_iff h).mpr ⟨a, hi⟩
  simp [hr] at hhalted

/-- R33 c: a step that leaves the machine running reaches 100 by an advance only, since a target is an address. -/
theorem ic_eq_99_of_step_ic_eq_100 {s t : State} (h : step s = .next t) (hr : t.status = .run) (hic : t.ic = 100) :
    s.ic = 99 := by
  obtain ⟨i, hi, hafter⟩ := step_ic_of_not_failed h (by simp [hr])
  rcases counterAfter_cases i s with hadvance | ⟨a, rfl⟩ | htarget
  · omega
  · exact absurd hi (not_halt_of_step_running h hr a)
  · have hlt : i.operand < 100 := wellFormed_of_currentInstr hi
    omega

/-- R33 c in the reading of log 20. -/
theorem step_ic_eq_100 {s t : State} (h : step s = .next t) (hic : t.ic = 100) :
    (s.ic = 99 ∧ t.status = .run) ∨ (s.ic = 100 ∧ t.status = .failed .counterOutOfRange) := by
  cases hs : t.status with
  | run => exact .inl ⟨ic_eq_99_of_step_ic_eq_100 h hs hic, rfl⟩
  | halted =>
    obtain ⟨a, hi⟩ := (step_halts_iff h).mp hs
    obtain ⟨j, hj, hafter⟩ := step_ic_of_not_failed h (by simp [hs])
    obtain rfl : Instr.halt a = j := Option.some.inj (hi.symm.trans hj)
    have hstays : t.ic = s.ic := hafter
    have hlt := (currentInstr_eq_some.mp hi).2.1
    omega
  | failed k =>
    have hout : s.ic = 100 := (step_ic_of_failed h hs).symm.trans hic
    obtain rfl := eq_of_stepWith_counterOutOfRange h hout.ge
    exact .inr ⟨hout, hs.symm⟩

/-- Settles O41: the invariant and the counts along the run, and what a step does to the counter. -/
theorem runsCountReadsAndWrites : Obligations.RunsCountReadsAndWrites := by
  unfold Obligations.RunsCountReadsAndWrites
  intro image inputs r w s hwf hrun
  obtain ⟨hinputs, hincur, hout⟩ := hrun.counts
  have hinv : s.Inv := hrun.inv hwf
  exact ⟨hinv.operand, hinv.counter, hinv.opcode, hinputs, hincur, hinputs ▸ hinv.cursor, hout, hinv.memory,
    fun _ => step_ic_eq_100⟩

/-! ### Runs under fuel -/

theorem runFor_succ_of_next {s t : State} (h : step s = .next t) (n : Nat) : runFor (n + 1) s = runFor n t := by
  rw [runFor, h]

theorem runFor_add (n m : Nat) (s : State) : runFor (n + m) s = runFor m (runFor n s) := by
  induction n generalizing s with
  | zero => rw [Nat.zero_add, runFor]
  | succ n ih =>
    by_cases hr : s.status = .run
    · obtain ⟨t, ht⟩ := stepWith_completes (p := Config.decodePriority) hr
      rw [Nat.add_right_comm, runFor_succ_of_next ht, runFor_succ_of_next ht, ih]
    · rw [runFor_of_ended hr, runFor_of_ended hr, runFor_of_ended hr]

/-- What holds of a state and is kept by every step holds after any number of steps. -/
theorem runFor_induction {P : State → Prop} (keeps : ∀ s t, P s → step s = .next t → P t) {s : State} (h : P s) (n : Nat) :
    P (runFor n s) := by
  induction n generalizing s with
  | zero => exact h
  | succ n ih =>
    by_cases hr : s.status = .run
    · obtain ⟨t, ht⟩ := stepWith_completes (p := Config.decodePriority) hr
      rw [runFor_succ_of_next ht]
      exact ih (keeps s t h ht)
    · rwa [runFor_of_ended hr]

/-- R90: the end of a run is kept. -/
theorem runFor_eq_of_ended {s : State} {n m : Nat} (h : (runFor n s).status ≠ .run) (hle : n ≤ m) :
    runFor m s = runFor n s := by
  obtain ⟨d, rfl⟩ := Nat.exists_eq_add_of_le hle
  rw [runFor_add, runFor_of_ended h]

/-- R162: LoadFailure is no step's. -/
theorem step_status_ne_loadFailure {s t : State} (h : step s = .next t) : t.status ≠ .failed .loadFailure :=
  fun ht => not_failsWith_loadFailure (running_of_stepWith_next h) ⟨t, h, ht⟩

/-- Settles O42: if some state of the run is not running, its STATUS tells which end it is. -/
theorem everyRunHaltsFailsOrNeverEnds : Obligations.EveryRunHaltsFailsOrNeverEnds := by
  unfold Obligations.EveryRunHaltsFailsOrNeverEnds
  intro image inputs at_
  refine ⟨?_, fun n m => runFor_eq_of_ended⟩
  have hload (n : Nat) : (at_ n).status ≠ .failed .loadFailure :=
    runFor_induction (P := fun s => s.status ≠ .failed .loadFailure) (fun _ _ _ => step_status_ne_loadFailure) (by simp) n
  by_cases hrun : ∀ n, (at_ n).status = .run
  · exact .inr (.inr hrun)
  · obtain ⟨n, hn⟩ := not_forall.mp hrun
    cases hs : (at_ n).status with
    | run => exact absurd hs hn
    | halted => exact .inl ⟨n, hs⟩
    | failed k => exact .inr (.inl ⟨n, k, hs, fun hk => hload n (hk ▸ hs)⟩)

/-! ### A branch to itself -/

/-- The machine runs at address `a`, with ACC, memory and OUT those of `s`. -/
def LoopsAt (s : State) (a : Nat) (t : State) : Prop :=
  t.status = .run ∧ t.ic = a ∧ t.acc = s.acc ∧ t.mem = s.mem ∧ t.out = s.out

/-- R130: the branch goes to where it stands and writes none of the three. -/
theorem loopsAt_step {s t u : State} {a : Nat} (ha : a < 100) (hword : (memRead s a).val = 4000 + (a : Int))
    (h : LoopsAt s a t) (hstep : step t = .next u) : LoopsAt s a u := by
  obtain ⟨hr, hic, hacc, hmem, hout⟩ := h
  have hfetched : (memRead t t.ic).val = 4000 + (a : Int) := by rw [memRead_eq, hmem, hic, ← memRead_eq, hword]
  have hd : decodeWith Config.decodePriority (memRead t t.ic).val = .ok (.branch a) :=
    decodeWith_of_encode_eq _ ha ((encode_branch a).trans hfetched.symm)
  have hi : currentInstr t = some (.branch a) := currentInstr_eq_some.mpr ⟨hr, hic ▸ ha, hd⟩
  have hnext := (step_eq_exec hi).symm.trans hstep
  rw [exec_branch ha] at hnext
  obtain rfl := Host.Outcome.next.inj hnext
  exact ⟨hr, rfl, hacc, hmem, hout⟩

/-- Settles O43: the loop is kept by every step. -/
theorem branchToItselfNeverEnds : Obligations.BranchToItselfNeverEnds := by
  unfold Obligations.BranchToItselfNeverEnds
  intro s a ha hr hic hword n
  exact runFor_induction (P := LoopsAt s a) (fun _ _ => loopsAt_step ha hword) ⟨hr, hic, rfl, rfl, rfl⟩ n

/-! ### Runs without a backward branch -/

/-- R91: without a backward branch an instruction that does not halt moves IC upward. -/
theorem ic_lt_counterAfter {s : State} {i : Instr} (hi : currentInstr s = some i) (hhalt : ∀ a, i ≠ .halt a)
    (hb : takesBackwardBranch s = false) : s.ic < counterAfter i s := by
  rw [takesBackwardBranch, hi] at hb
  cases i with
  | branch a => simpa [counterAfter] using hb
  | branchNeg a =>
    rw [counterAfter]
    split_ifs with hc
    · simpa [accNegative, hc] using hb
    · exact Nat.lt_succ_self _
  | branchZero a =>
    rw [counterAfter]
    split_ifs with hc
    · simpa [accZero, hc] using hb
    · exact Nat.lt_succ_self _
  | halt a => exact absurd rfl (hhalt a)
  | _ => exact Nat.lt_succ_self _

theorem ic_lt_of_step {s t : State} (h : step s = .next t) (hr : t.status = .run) (hb : takesBackwardBranch s = false) :
    s.ic < t.ic := by
  obtain ⟨i, hi, hafter⟩ := step_ic_of_not_failed h (by simp [hr])
  rw [hafter]
  exact ic_lt_counterAfter hi (fun a ha => not_halt_of_step_running h hr a (ha ▸ hi)) hb

/-- A run that still goes on after `n + 1` steps did so after `n`, and took a step then. -/
theorem step_runFor_of_running {s : State} {n : Nat} (h : (runFor (n + 1) s).status = .run) :
    step (runFor n s) = .next (runFor (n + 1) s) := by
  have hr : (runFor n s).status = .run := by
    by_contra hended
    rw [runFor_eq_of_ended hended (Nat.le_succ n)] at h
    exact hended h
  obtain ⟨t, ht⟩ := stepWith_completes (p := Config.decodePriority) hr
  rw [runFor_add, runFor_succ_of_next ht]
  exact ht

/-- R91: while the run goes on, IC has risen by at least one per step. -/
theorem le_ic_of_running {s : State} {n : Nat} (hb : ∀ m, m < n → takesBackwardBranch (runFor m s) = false)
    (hr : (runFor n s).status = .run) : n ≤ (runFor n s).ic := by
  induction n with
  | zero => exact Nat.zero_le _
  | succ n ih =>
    have hstep := step_runFor_of_running hr
    have hn := ih (fun m hm => hb m (Nat.lt_succ_of_lt hm)) (running_of_stepWith_next hstep)
    have hup := ic_lt_of_step hstep hr (hb n (Nat.lt_succ_self n))
    omega

/-- Settles O44: after 100 steps a run that goes on has IC at 100 or above, and the next Fetch fails. -/
theorem runWithoutBackwardBranchEndsWithin101Steps : Obligations.RunWithoutBackwardBranchEndsWithin101Steps := by
  unfold Obligations.RunWithoutBackwardBranchEndsWithin101Steps
  intro s hb hr
  have hstep : step (runFor 100 s) = .next (runFor 101 s) := step_runFor_of_running hr
  have hr100 : (runFor 100 s).status = .run := running_of_stepWith_next hstep
  have hic : 100 ≤ (runFor 100 s).ic := le_ic_of_running (fun m hm => hb m (Nat.lt_succ_of_lt hm)) hr100
  simp [eq_of_stepWith_counterOutOfRange hstep hic] at hr

end Sys2Proof.Machine
end

section
/-! PROOFS. The canonical form of memory (10_state.md section 5) and the loader's contract (70_reset_and_hazards.md R195). -/

namespace Sys2Proof.Machine

/-! ### The canonical form -/

/-- Below the least address it lists, a canonical memory reads as unlisted. -/
theorem Memory.read_of_lt {lo a : Nat} {m : Memory} (h : Memory.wfFrom lo m = true) (ha : a < lo) :
    Memory.read m a = Memory.unlisted := by
  induction m generalizing lo with
  | nil => rfl
  | cons c m ih =>
    obtain ⟨x, v⟩ := c
    obtain ⟨hlo, -, -, hm⟩ := Memory.wfFrom_cons.mp h
    rw [Memory.read_cons, if_neg (by omega), ih hm (by omega)]

/-- A memory whose first entry is at `x` reads otherwise there than one that lists nothing up to `x`. -/
theorem Memory.read_cons_ne {x : Nat} {v : Word} {m n : Memory} (hv : v ≠ Memory.unlisted)
    (hn : Memory.wfFrom (x + 1) n = true) : Memory.read ((x, v) :: m) x ≠ Memory.read n x := by
  rwa [Memory.read_cons, if_pos rfl, Memory.read_of_lt hn (Nat.lt_succ_self x)]

/-- Where both memories have the same first entry, what is left of them reads alike too. -/
theorem Memory.read_tail_eq {x : Nat} {u v : Word} {m n : Memory} (hm : Memory.wfFrom (x + 1) m = true)
    (hn : Memory.wfFrom (x + 1) n = true) {a : Nat}
    (h : Memory.read ((x, u) :: m) a = Memory.read ((x, v) :: n) a) : Memory.read m a = Memory.read n a := by
  by_cases hx : x = a
  · rw [Memory.read_of_lt hm (by omega), Memory.read_of_lt hn (by omega)]
  · rwa [Memory.read_cons, Memory.read_cons, if_neg hx, if_neg hx] at h

theorem Memory.eq_of_read_eq {lo : Nat} {m n : Memory} (hm : Memory.wfFrom lo m = true) (hn : Memory.wfFrom lo n = true)
    (h : ∀ a, a < 100 → Memory.read m a = Memory.read n a) : m = n := by
  induction m generalizing lo n with
  | nil =>
    cases n with
    | nil => rfl
    | cons d n =>
      obtain ⟨y, v⟩ := d
      obtain ⟨-, hy, hv, -⟩ := Memory.wfFrom_cons.mp hn
      exact absurd (h y hy).symm (Memory.read_cons_ne hv rfl)
  | cons c m ih =>
    obtain ⟨x, u⟩ := c
    obtain ⟨-, hx, hu, hm⟩ := Memory.wfFrom_cons.mp hm
    cases n with
    | nil => exact absurd (h x hx) (Memory.read_cons_ne hu rfl)
    | cons d n =>
      obtain ⟨y, v⟩ := d
      obtain ⟨-, hy, hv, hn⟩ := Memory.wfFrom_cons.mp hn
      rcases lt_trichotomy x y with hxy | rfl | hxy
      · exact absurd (h x hx) (Memory.read_cons_ne hu (Memory.wfFrom_cons.mpr ⟨hxy, hy, hv, hn⟩))
      · have huv : u = v := by simpa [Memory.read_cons] using h x hx
        rw [huv, ih hm hn fun a ha => Memory.read_tail_eq hm hn (h a ha)]
      · exact absurd (h y hy).symm (Memory.read_cons_ne hv (Memory.wfFrom_cons.mpr ⟨hxy, hx, hu, hm⟩))

/-- Settles O47: by induction on the two lists, whose first entries must be at the same address. -/
theorem canonicalMemoriesThatReadAlikeAreEqual : Obligations.CanonicalMemoriesThatReadAlikeAreEqual := by
  unfold Obligations.CanonicalMemoriesThatReadAlikeAreEqual
  exact fun _ _ hm hn h => Memory.eq_of_read_eq hm hn h

/-! ### The loader, value by value -/

theorem word_val_ne_sentinel (w : Word) : w.val ≠ Config.sentinel := by
  have hlower := w.lower
  rw [Config.sentinel_eq]
  omega

theorem loadFrom_sentinel (n : Nat) (rest : List Int) : loadFrom n (Config.sentinel :: rest) = .image [] := by
  rw [loadFrom, if_pos rfl]

theorem loadFrom_of_not_inWordRange {n : Nat} {v : Int} {rest : List Int} (hs : v ≠ Config.sentinel)
    (hv : ¬ InWordRange v) : loadFrom n (v :: rest) = .failure .loadFailure := by
  rw [loadFrom, if_neg hs, validate_eq_none_iff.mpr (not_inWordRange_iff.mp hv)]

theorem loadFrom_of_full {n : Nat} (w : Word) {rest : List Int} (hn : 100 ≤ n) :
    loadFrom n (w.val :: rest) = .failure .loadFailure := by
  rw [loadFrom, if_neg (word_val_ne_sentinel w), validate_val]
  exact if_neg (not_lt.mpr hn)

theorem loadFrom_of_image {n : Nat} (w : Word) {rest : List Int} {m : Memory} (hn : n < 100)
    (h : loadFrom (n + 1) rest = .image m) : loadFrom n (w.val :: rest) = .image (consCell n w m) := by
  rw [loadFrom, if_neg (word_val_ne_sentinel w), validate_val, h]
  exact if_pos hn

theorem loadFrom_of_failure {n : Nat} (w : Word) {rest : List Int}
    (h : loadFrom (n + 1) rest = .failure .loadFailure) : loadFrom n (w.val :: rest) = .failure .loadFailure := by
  rw [loadFrom, if_neg (word_val_ne_sentinel w), validate_val, h]
  exact ite_self _

theorem read_consCell_same {n : Nat} {m : Memory} (w : Word) (h : Memory.wfFrom (n + 1) m = true) :
    Memory.read (consCell n w m) n = w := by
  unfold consCell
  split_ifs with hw
  · rw [Memory.read_of_lt h (Nat.lt_succ_self n), hw]
  · rw [Memory.read_cons, if_pos rfl]

theorem read_consCell_of_ne {n b : Nat} (w : Word) (m : Memory) (h : n ≠ b) :
    Memory.read (consCell n w m) b = Memory.read m b := by
  unfold consCell
  split_ifs
  · rfl
  · rw [Memory.read_cons, if_neg h]

/-! ### The loader on a list of Words -/

/-- R195 (a), (d): the Words before the sentinel fill the cells from `n` on, as far as they fit. -/
theorem loadFrom_words {ws : List Word} (rest : List Int) {n : Nat} (h : n + ws.length ≤ 100) :
    ∃ m, loadFrom n (ws.map Word.val ++ Config.sentinel :: rest) = .image m ∧
      ∀ k, Memory.read m (n + k) = ws.getD k Word.zero := by
  induction ws generalizing n with
  | nil => exact ⟨[], loadFrom_sentinel n rest, fun _ => rfl⟩
  | cons w ws ih =>
    rw [List.length_cons] at h
    obtain ⟨m, hm, hread⟩ := ih (n := n + 1) (by omega)
    refine ⟨consCell n w m, loadFrom_of_image w (by omega) hm, fun k => ?_⟩
    cases k with
    | zero => exact read_consCell_same w (loadFrom_wfFrom hm)
    | succ k => rw [read_consCell_of_ne w m (by omega), ← Nat.add_assoc, Nat.add_right_comm, hread, List.getD_cons_succ]

/-- A rejection of what follows some Words rejects the whole, or the Words have not fitted before. -/
theorem loadFrom_words_of_failure (ws : List Word) {rest : List Int} (h : ∀ n, loadFrom n rest = .failure .loadFailure)
    (n : Nat) : loadFrom n (ws.map Word.val ++ rest) = .failure .loadFailure := by
  induction ws generalizing n with
  | nil => exact h n
  | cons w ws ih => exact loadFrom_of_failure w (ih (n + 1))

/-- R195 (c): the value that would be the 101st is rejected, whatever follows it. -/
theorem loadFrom_words_of_full {ws : List Word} (rest : List Int) {n : Nat} (hn : n ≤ 100) (h : 100 < n + ws.length) :
    loadFrom n (ws.map Word.val ++ rest) = .failure .loadFailure := by
  induction ws generalizing n with
  | nil => exact absurd hn (not_le.mpr h)
  | cons w ws ih =>
    rcases hn.lt_or_eq with hlt | rfl
    · rw [List.length_cons] at h
      exact loadFrom_of_failure w (ih hlt (by omega))
    · exact loadFrom_of_full w le_rfl

/-- Settles O48: the three ends of the loader, each after the Words before it. -/
theorem loaderFillsFromCellZeroOrRejects : Obligations.LoaderFillsFromCellZeroOrRejects := by
  unfold Obligations.LoaderFillsFromCellZeroOrRejects
  refine ⟨fun ws rest hlen => ?_, fun ws v rest hs hv => ?_, fun ws rest hlen => ?_⟩
  · obtain ⟨m, hm, hread⟩ := loadFrom_words rest (n := 0) (by rwa [Nat.zero_add])
    exact ⟨m, hm, loadProgram_memory_wf hm, fun n => by simpa using hread n⟩
  · exact loadFrom_words_of_failure ws (fun _ => loadFrom_of_not_inWordRange hs hv) 0
  · exact loadFrom_words_of_full rest (Nat.zero_le 100) (by rwa [Nat.zero_add])

end Sys2Proof.Machine
end

section
/-! PROOFS. The status pins (50_blocks_and_interfaces.md R152, 60_exceptions.md R161), and the host's placing of a word
in the table's spelling (log 11). -/

namespace Sys2Proof.Machine

/-! ### The status pins -/

/-- Settles O50: by the three values of STATUS, and the seven kinds. -/
theorem statusPinsShowExactlyOne : Obligations.StatusPinsShowExactlyOne := by
  unfold Obligations.StatusPinsShowExactlyOne
  refine ⟨fun s => ?_, fun s => ?_, fun s => rfl⟩
  · cases hs : s.status with
    | run => exact .inl (by simp [pins, hs, statusNumber])
    | halted => exact .inr (.inl (by simp [pins, hs, statusNumber]))
    | failed k => exact .inr (.inr (by simp [pins, hs, statusNumber]))
  · rw [pins]
    rcases s.status with _ | _ | k
    · rfl
    · rfl
    · cases k <;> rfl

/-! ### Placing a word -/

/-- Where the pattern is an instruction's, the word placed is the instruction's encoding. -/
theorem notationWord_val {n w : Nat} {i : Instr} (h : decodeTableWord n w = some i) :
    (notationWord n w).val = encode i ∧ i.WellFormed := by
  obtain ⟨v, hv, hd⟩ := decodeTableWord_eq_some_iff.mp h
  have hw : i.WellFormed := wellFormed_of_decodeWith hd
  have henc : encode i = v := encode_of_decodeWith hd
  refine ⟨?_, hw⟩
  obtain ⟨u, hu⟩ : ∃ u : Word, u.val = v := by
    have hcode := code_lt_fifty i
    have hoperand : i.operand < 100 := hw
    refine ⟨⟨v, ?_⟩, rfl⟩
    rw [← henc, encode, Config.wordMin_eq, Config.wordMax_eq]
    omega
  rw [notationWord, hv, henc]
  simp only [validate_eq_some_iff.mpr hu, hu]

/-- Log 11: in a running state whose counter is an address, placing a word is a write of the cell at IC. -/
theorem withFetchWord_eq {s : State} (hr : s.status = .run) (hc : s.ic < 100) (n w : Nat) :
    s.withFetchWord n w = memWrite s.ic (notationWord n w) s := by
  have hplace : fetchPlace s = s.ic := if_pos ((counterInRange_iff s).mpr hc)
  rw [State.withFetchWord, placeFetchWord, hplace, ← hr]
  rfl

/-- Settles O51: the word written at IC is the instruction's encoding, so the next step decodes it back. -/
theorem placedWordIsRunByTheNextStep : Obligations.PlacedWordIsRunByTheNextStep := by
  unfold Obligations.PlacedWordIsRunByTheNextStep
  intro s w i hr hc h
  obtain ⟨hv, hw⟩ := notationWord_val h
  rw [withFetchWord_eq hr hc]
  refine ⟨_, notationWord 16 w, hv, rfl, fun b => Memory.read_write s.mem s.ic b _, ?_⟩
  have hfetch : memRead (memWrite s.ic (notationWord 16 w) s) s.ic = notationWord 16 w := by
    rw [memRead_memWrite, if_pos rfl]
  have hi : currentInstr (memWrite s.ic (notationWord 16 w) s) = some i :=
    currentInstr_eq_some.mpr ⟨hr, hc, decodeWith_of_encode_eq _ hw (by rw [memWrite_ic, hfetch, hv])⟩
  rw [step_eq_exec hi, loadIr, memWrite_ic, hfetch]
  rfl

end Sys2Proof.Machine
end
